-- ==== Sys2Proof/Word.lean ====
section
/-! DEFINITION. The words of FCSR: bytes, 32-bit values and byte sequences (00_scope.md R8, R9). -/

namespace Sys2Proof

/-- An unsigned 8-bit value (R8). -/
abbrev Byte := BitVec 8

/-- A 32-bit pattern; FCSR never interprets it as a number (R8, R12). -/
abbrev Word32 := BitVec 32

/-- A finite sequence of bytes; element 0 is the first on the wire, or the buffer head (R9). -/
abbrev Bytes := List Byte

end Sys2Proof
end

