-- ==== Sys2Proof/Config.lean ====
section
/-! DEFINITION. What is fixed for the life of one FCSR instance: the fixed constants (00_scope.md R5) and the
configuration parameters (R6). The configuration of an instance is a value of type `Config` held in its State, so that
every statement over all states is a statement over all configurations. -/

namespace Sys2Proof

/-- `HDR_LEN`, the marker length (R5). -/
abbrev hdrLen : Nat := 2

/-- `L_SENSOR`, the sensor frame length (R5). -/
abbrev sensorLength : Nat := 9

/-- `L_COMMAND`, the command frame length (R5). -/
abbrev commandLength : Nat := 5

/-- `L_MAX`, the greater of the two frame lengths (R5). -/
abbrev maxFrameLength : Nat := 9

/-- A header marker: a pair of bytes, `m0` first on the wire (R6, 20_memory.md R44). -/
structure Marker where
  m0 : Byte
  m1 : Byte
deriving DecidableEq, Repr

/-- `BUF_CAP`: unbounded, or a number of bytes (R6). -/
inductive Capacity where
  | inf
  | finite (n : Nat)
deriving DecidableEq, Repr

/-- The configuration parameters of an instance (R6). Which configurations are legal is `Config.legal`. -/
structure Config where
  sensMarker : Marker
  cmdMarker  : Marker
  cap        : Capacity
deriving DecidableEq, Repr

/-- The default of SENS_MARKER (R6, 92_eei_decisions.md D7). -/
def Config.defaultSensMarker : Marker := ⟨0xAA, 0xBB⟩

/-- DESIGN CHOICE (log 7): the spec gives CMD_MARKER no value, so the one of the reset instance is an open pair of
bytes that nothing can evaluate. -/
opaque Config.cmdMarkerChoice : Byte × Byte

/-- CMD_MARKER of the reset instance: the open pair, moved off SENS_MARKER in the one case where the two would be
equal (a legal configuration has distinct markers, 70_reset_and_hazards.md R147). It can be any legal value. -/
def Config.openCmdMarker : Marker :=
  let m : Marker := ⟨Config.cmdMarkerChoice.1, Config.cmdMarkerChoice.2⟩
  if m = Config.defaultSensMarker then ⟨m.m0, ~~~m.m1⟩ else m

/-- The configuration of the reset instance: default SENS_MARKER (log 8), open CMD_MARKER (log 7), and the source's
growable buffer (DESIGN CHOICE, log 9). -/
def Config.initial : Config :=
  { sensMarker := Config.defaultSensMarker, cmdMarker := Config.openCmdMarker, cap := .inf }

end Sys2Proof
end

