-- ==== Sys2Proof/Syntax.lean ====
section
/-! DEFINITION. The instructions of FCSR: the eight requests (10_state.md R28), the reserved requests
(30_encoding.md R71) and the two wire frames (R60, R61); one constructor for each row of spec/opcode_table.json. -/

namespace Sys2Proof

/-- One constructor per row of the opcode table. The wire rows carry the bytes of a window whose first two bytes are
the row's marker; their checksum byte is an operand, so a window with a wrong checksum is one of them too (log 1). -/
inductive Instr where
  /-- APPEND: add one byte at the buffer's tail (41_reassembler.md R104). -/
  | append (b : Byte)
  /-- STEP: one iteration of the boundary scanner (R106). -/
  | step
  /-- POLL: STEP until it stops (R110). -/
  | poll
  /-- RESET: clear the buffer (R102). -/
  | reset
  /-- ENCODE_SENSOR (40_codec.md R86). -/
  | encodeSensor (sensorId dataType : Byte) (valueBits : Word32)
  /-- ENCODE_COMMAND (R88). -/
  | encodeCommand (actuatorId commandType : Byte)
  /-- DECODE of the bytes `w`; the encoded count `n` is their number (R91). -/
  | decode (w : Bytes)
  /-- CHECKSUM of the bytes `data`; the encoded count `n` is their number (R82). -/
  | checksum (data : Bytes)
  /-- RESERVED_REQUEST: an ill-formed request record, carried whole (30_encoding.md R71). -/
  | reservedRequest (record : Bytes)
  /-- SENSOR_FRAME: a 9-byte window of the stream with the sensor marker at its head (R60). -/
  | sensorFrame (sensorId dataType : Byte) (valueBits : Word32) (chk : Byte)
  /-- COMMAND_FRAME: a 5-byte window of the stream with the command marker at its head (R61). -/
  | commandFrame (actuatorId commandType chk : Byte)
deriving DecidableEq, Repr

/-- Where an instruction's bytes stand: on the request interface, or on the byte stream (30_encoding.md, opening). -/
inductive Channel where
  | request
  | wire
deriving DecidableEq, Repr

/-- The channel of each instruction. -/
def Instr.channel : Instr → Channel
  | .append _ => .request
  | .step => .request
  | .poll => .request
  | .reset => .request
  | .encodeSensor _ _ _ => .request
  | .encodeCommand _ _ => .request
  | .decode _ => .request
  | .checksum _ => .request
  | .reservedRequest _ => .request
  | .sensorFrame _ _ _ _ => .wire
  | .commandFrame _ _ _ => .wire

/-- The pseudo-request APPENDS: one APPEND for each byte, in order; for no byte, no request (30_encoding.md R74). -/
def appends (bs : Bytes) : List Instr := bs.map Instr.append

end Sys2Proof
end

