-- ==== Sys2Proof/WellFormed.lean ====
section
/-! DEFINITION. Which instructions can stand in a record or in the stream: the operand ranges of 10_state.md R28 and
the rule for ill-formed request records, 30_encoding.md R71. -/

namespace Sys2Proof

/-- Why a request record is ill-formed. -/
inductive RequestDefect where
  /-- The record has no byte at all, so no opcode (log 4). -/
  | noOpcode
  /-- The opcode is 0x00 or in 0x09..0xFF (R71). -/
  | reservedOpcode
  /-- The total length is not the one R70 gives for the opcode (R71). -/
  | wrongLength
deriving DecidableEq, Repr

/-- The total number of bytes R70 gives a record with this opcode, where `count` is the byte after the opcode
(0 when there is none: a DECODE or CHECKSUM record of one byte is too short either way). -/
def recordLength (opcode count : Byte) : Option Nat :=
  match opcode.toNat with
  | 0x01 => some 2
  | 0x02 => some 1
  | 0x03 => some 1
  | 0x04 => some 1
  | 0x05 => some 7
  | 0x06 => some 3
  | 0x07 => some (2 + count.toNat)
  | 0x08 => some (2 + count.toNat)
  | _ => none

/-- What is wrong with a request record, if anything (R71). -/
def requestDefect : Bytes → Option RequestDefect
  | [] => some .noOpcode
  | opcode :: args =>
    match recordLength opcode (args.headD 0) with
    | none => some .reservedOpcode
    | some n => if args.length + 1 = n then none else some .wrongLength

/-- DECODE and CHECKSUM take 0 to 255 bytes (R28), and the bytes of a reserved request are an ill-formed record (R71).
Every other operand is legal at every value of its width (R28, R65). -/
def Instr.wellFormed : Instr → Bool
  | .append _ => true
  | .step => true
  | .poll => true
  | .reset => true
  | .encodeSensor _ _ _ => true
  | .encodeCommand _ _ => true
  | .decode w => w.length ≤ 255
  | .checksum data => data.length ≤ 255
  | .reservedRequest record => (requestDefect record).isSome
  | .sensorFrame _ _ _ _ => true
  | .commandFrame _ _ _ => true

end Sys2Proof
end

