-- ==== Sys2Proof/Decode.lean ====
section
/-! DEFINITION. From bytes to instructions and back: request records (30_encoding.md R70, R71), windows of the byte
stream (R59, R60, R61, R63, R64, R66) and the numbering of spec/opcode_table.json. Both decoders are total. -/

namespace Sys2Proof

/-- `u32be(a, b, c, d)` (00_scope.md R11, 20_memory.md R45). -/
def u32be (a b c d : Byte) : Word32 :=
  (a.setWidth 32 <<< 24) ||| (b.setWidth 32 <<< 16) ||| (c.setWidth 32 <<< 8) ||| d.setWidth 32

/-- The four bytes of a 32-bit value, most significant first (20_memory.md R45). -/
def bigEndian (v : Word32) : Bytes :=
  [v.extractLsb' 24 8, v.extractLsb' 16 8, v.extractLsb' 8 8, v.extractLsb' 0 8]

/-- A marker written as one 16-bit number, `m0` in the high byte (R44). -/
def Marker.word16 (m : Marker) : BitVec 16 := (m.m0.setWidth 16 <<< 8) ||| m.m1.setWidth 16

/-- `L(h)`: the frame length a 2-byte header selects (00_scope.md R7). -/
def Config.frameLength (c : Config) (h : Marker) : Option Nat :=
  if h = c.sensMarker then some sensorLength
  else if h = c.cmdMarker then some commandLength
  else none

/-- The instruction a request record stands for. Every record has one: an ill-formed record is the RESERVED_REQUEST
that carries it (R70, R71). -/
def decodeRequest (r : Bytes) : Instr :=
  match r with
  | [] => .reservedRequest r
  | opcode :: args =>
    match opcode.toNat, args with
    | 0x01, [b] => .append b
    | 0x02, [] => .step
    | 0x03, [] => .poll
    | 0x04, [] => .reset
    | 0x05, [i, t, v3, v2, v1, v0] => .encodeSensor i t (u32be v3 v2 v1 v0)
    | 0x06, [a, k] => .encodeCommand a k
    | 0x07, n :: w => if w.length = n.toNat then .decode w else .reservedRequest r
    | 0x08, n :: data => if data.length = n.toNat then .checksum data else .reservedRequest r
    | _, _ => .reservedRequest r

/-- Why bytes of the stream are not the window of a frame row (30_encoding.md R68). -/
inductive WireReject where
  /-- Fewer than the two bytes of a header. -/
  | noHeader
  /-- The first two bytes match neither marker. -/
  | unknownHeader
  /-- A recognized header with fewer bytes than its variant has. -/
  | incomplete
deriving DecidableEq, Repr

/-- The frame row that stands at the head of a byte sequence: both header bytes select it (R59, R66), and the operands
are the bytes of R60 and R61. Bytes after the window are not read. -/
def decodeWire (c : Config) (w : Bytes) : Except WireReject Instr :=
  match w with
  | m0 :: m1 :: rest =>
    if (⟨m0, m1⟩ : Marker) = c.sensMarker then
      match rest with
      | i :: t :: v3 :: v2 :: v1 :: v0 :: k :: _ => .ok (.sensorFrame i t (u32be v3 v2 v1 v0) k)
      | _ => .error .incomplete
    else if (⟨m0, m1⟩ : Marker) = c.cmdMarker then
      match rest with
      | a :: t :: k :: _ => .ok (.commandFrame a t k)
      | _ => .error .incomplete
    else .error .unknownHeader
  | _ => .error .noHeader

/-- The decoder of either channel. -/
def decodeOn (c : Config) (ch : Channel) (bytes : Bytes) : Except WireReject Instr :=
  match ch with
  | .request => .ok (decodeRequest bytes)
  | .wire => decodeWire c bytes

/-- The encoder: the bytes of a well-formed instruction on its channel (R60, R61, R70). -/
def encode (c : Config) : Instr → Bytes
  | .append b => [0x01, b]
  | .step => [0x02]
  | .poll => [0x03]
  | .reset => [0x04]
  | .encodeSensor i t v => [0x05, i, t] ++ bigEndian v
  | .encodeCommand a k => [0x06, a, k]
  | .decode w => [0x07, BitVec.ofNat 8 w.length] ++ w
  | .checksum data => [0x08, BitVec.ofNat 8 data.length] ++ data
  | .reservedRequest record => record
  | .sensorFrame i t v k => [c.sensMarker.m0, c.sensMarker.m1, i, t] ++ bigEndian v ++ [k]
  | .commandFrame a t k => [c.cmdMarker.m0, c.cmdMarker.m1, a, t, k]

/-! ### Frames as numbers, and the numbering of spec/opcode_table.json -/

/-- A window as one big-endian number: its first byte is the most significant one. A 9-byte window is the 72-bit value
of R60, byte 0 in bits 71:64; a 5-byte window is the 40-bit value of R61, byte 0 in bits 39:32. -/
def windowWord : Bytes → Nat
  | [] => 0
  | b :: bs => b.toNat * 2 ^ (8 * bs.length) + windowWord bs

/-- Byte `k` of a word whose byte 0 is its least significant one. -/
def tableByte (w k : Nat) : Byte := BitVec.ofNat 8 (w >>> (8 * k))

/-- The window of `n` bytes that a big-endian number stands for (R60, R61). -/
def wordWindow : Nat → Nat → Bytes
  | 0, _ => []
  | n + 1, w => tableByte w n :: wordWindow n w

/-- Bytes `k, k + 1, …` of a word, `n` of them. -/
def tableBytes (w : Nat) : Nat → Nat → Bytes
  | _, 0 => []
  | k, n + 1 => tableByte w k :: tableBytes w (k + 1) n

/-- The bytes of one row of the opcode table, and the channel they stand on. -/
inductive TableRow where
  | request (record : Bytes)
  | wire (window : Bytes)
deriving DecidableEq, Repr

/-- The row's bytes (log 13). A word of 40 bits is the COMMAND_FRAME row as R61 numbers it; the table gives its header
as the parameter CMD_MARKER, so bits 39:24 stand for the reset instance's command marker, whatever they are. A word of
72 bits is the SENSOR_FRAME row as R60 numbers it, header in bits 71:56. The table itself gives that row's fixed bits as
15:0, holding `(byte0 << 8) | byte1` (its match_note): a word of at least 16 bits with the default sensor marker there
(and not in bits 71:56) is that header, high byte first, the bytes after it counting on from it. Every other word is a
request record, byte 0 least significant. Bits above `nbits` are 0, up to the length the opcode asks for. -/
def tableRow (nbits w : Nat) : TableRow :=
  let marker := Config.defaultSensMarker.word16
  if nbits = 40 then
    .wire (Config.openCmdMarker.m0 :: Config.openCmdMarker.m1 :: wordWindow 3 w)
  else if nbits = 72 ∧ BitVec.ofNat 16 (w >>> 56) = marker then
    .wire (wordWindow 9 w)
  else if 16 ≤ nbits ∧ BitVec.ofNat 16 w = marker then
    .wire (tableByte w 1 :: tableByte w 0 :: tableBytes w 2 7)
  else if nbits = 72 then
    .wire (wordWindow 9 w)
  else
    let given := max 1 ((nbits + 7) / 8)
    let asked := (recordLength (tableByte w 0) (tableByte w 1)).getD 1
    .request (tableBytes w 0 (max given asked))

/-- The instruction the decoder reads from a word of the opcode table, under the reset instance's markers. -/
def decodeTableWord (nbits w : Nat) : Option Instr :=
  match tableRow nbits w with
  | .request record => some (decodeRequest record)
  | .wire window =>
    match decodeWire Config.initial window with
    | .ok i => some i
    | .error _ => none

/-! ### The written form of a request (30_encoding.md R73) -/

/-- One hexadecimal digit, in capitals. -/
def hexDigit (n : Nat) : Char := if n < 10 then Char.ofNat (48 + n) else Char.ofNat (55 + n)

/-- Two hexadecimal digits of a byte. -/
def hexByte (b : Byte) : List Char := [hexDigit (b.toNat / 16), hexDigit (b.toNat % 16)]

/-- `0xNN` (00_scope.md R8). -/
def asmByte (b : Byte) : List Char := '0' :: 'x' :: hexByte b

/-- A list of bytes in brackets. -/
def asmList : Bytes → List Char
  | [] => ['[', ']']
  | b :: bs => '[' :: (asmByte b ++ bs.flatMap (fun x => ',' :: ' ' :: asmByte x) ++ [']'])

/-- The written form of each request: its mnemonic, then its operands in hex (R73). The other rows have none. -/
def Instr.asm : Instr → Option (List Char)
  | .append b => some ("APPEND ".toList ++ asmByte b)
  | .step => some "STEP".toList
  | .poll => some "POLL".toList
  | .reset => some "RESET".toList
  | .encodeSensor i t v =>
    some ("ENCODE_SENSOR ".toList ++ asmByte i ++ [',', ' '] ++ asmByte t ++ [',', ' ', '0', 'x'] ++
      (bigEndian v).flatMap hexByte)
  | .encodeCommand a k => some ("ENCODE_COMMAND ".toList ++ asmByte a ++ [',', ' '] ++ asmByte k)
  | .decode w => some ("DECODE ".toList ++ asmList w)
  | .checksum data => some ("CHECKSUM ".toList ++ asmList data)
  | .reservedRequest _ => none
  | .sensorFrame _ _ _ _ => none
  | .commandFrame _ _ _ => none

end Sys2Proof
end

