-- ==== Sys2Proof/Machine/State.lean ====
section
/-! DEFINITION. The values FCSR handles (00_scope.md R12), its responses (10_state.md R30), its state (R21, R25, R37)
with the three interfaces of R32 as data, the reasons a step can stop, and the state after reset. -/

namespace Sys2Proof.Machine

/-- A decoded frame (R12). The value of a sensor frame is its 32-bit pattern. -/
inductive Frame where
  | sensor (sensorId dataType : Byte) (valueBits : Word32)
  | command (actuatorId commandType : Byte)
deriving DecidableEq, Repr

/-- The failures of decoding (R12, 60_exceptions.md R127). -/
inductive DecodeError where
  | tooShort
  | checksumMismatch
  | unknownHeader
deriving DecidableEq, Repr

/-- The result of decoding: a frame and the number of bytes it took, or a failure (R12). -/
inductive DecodeResult where
  | ok (frame : Frame) (consumed : Nat)
  | err (error : DecodeError)
deriving DecidableEq, Repr

/-- The reasons an error event can carry (R12, 60_exceptions.md R135). -/
inductive ErrorReason where
  | checksumMismatch
  | unknownHeader
deriving DecidableEq, Repr

/-- An event: `EvFrame` or `EvError` (R12). -/
inductive Event where
  | frame (f : Frame)
  | error (reason : ErrorReason)
deriving DecidableEq, Repr

/-- The status of a response (60_exceptions.md R128). -/
inductive Status where
  | ok
  | tooShort
  | checksumMismatch
  | unknownHeader
  | bufferFull
  | illegalRequest
deriving DecidableEq, Repr

/-- The outcome of a STEP body (41_reassembler.md R105). -/
inductive StepOutcome where
  /-- YIELD -/
  | yield
  /-- RESYNC -/
  | resync
  /-- STOP_NEED_DATA -/
  | stopNeedData
  /-- STOP_WAIT -/
  | stopWait
deriving DecidableEq, Repr

/-- The response record (10_state.md R30): a field that is present only for some requests is an Option. -/
structure Response where
  status  : Status
  len     : Nat
  outcome : Option StepOutcome := none
  events  : Option (List Event) := none
  bytes   : Option Bytes := none
  result  : Option DecodeResult := none
  chk     : Option Byte := none
deriving DecidableEq, Repr

/-- The event consumer's answers to the coming offers, oldest first, and its answer to every offer after those
(R34; DESIGN CHOICE, log 5). -/
structure Consumer where
  answers : List Bool
  after   : Bool
deriving DecidableEq, Repr

/-- An FCSR instance: its configuration (R25) and its one piece of architectural state, `buf` (R21), followed by the
interfaces of R32 as data (the model's own fields, logs 2, 5 and 11). -/
structure State where
  /-- The instance's configuration; no request writes it (R25). -/
  cfg       : Config
  /-- The reassembly buffer, head first (R21). -/
  buf       : Bytes
  /-- Request records presented and not yet performed, oldest first. -/
  requests  : List Bytes
  /-- The event consumer. -/
  consumer  : Consumer
  /-- The responses given, oldest first. -/
  responses : List Response
  /-- The event stream emitted, oldest first (R33). -/
  events    : List Event
deriving DecidableEq, Repr

/-- Why the machine stops. No request raises one: FCSR never traps (60_exceptions.md R127, R138). -/
inductive Fault where
  /-- Raised by `step` when no request is pending: FCSR takes no step on its own initiative (R29; log 3). Safe. -/
  | noRequest
  /-- Raised by `create` for an illegal configuration: no instance exists (R134; log 16). Safe. -/
  | illegalConfiguration
deriving DecidableEq, Repr

/-- Why an instruction has no meaning. -/
inductive Refusal where
  /-- Raised by an arm of `exec` whose instruction has no meaning yet; no arm raises it. Safe. -/
  | notModelled (mnemonic : String)
deriving DecidableEq, Repr

/-- A new instance with this configuration, before its first request: an empty buffer (R37), idle interfaces
(logs 2, 6, 11). -/
def State.fresh (c : Config) : State :=
  { cfg := c, buf := [], requests := [], consumer := { answers := [], after := true }, responses := [], events := [] }

/-- The machine right after creation with the model's configuration (R146; logs 7, 8, 9). -/
def State.reset : State := State.fresh Config.initial

end Sys2Proof.Machine
end

