-- ==== Sys2Proof/Machine/Flags.lean ====
section
/-! DEFINITION. FCSR has no flags (10_state.md R24); what takes their place are the codes of a response and of an
event: status (60_exceptions.md R128), outcome (41_reassembler.md R105), event kind (30_encoding.md R72). -/

namespace Sys2Proof.Machine

/-- The status codes (R128). -/
def Status.code : Status → Byte
  | .ok => 0x00
  | .tooShort => 0x01
  | .checksumMismatch => 0x02
  | .unknownHeader => 0x03
  | .bufferFull => 0x04
  | .illegalRequest => 0x05

/-- The status that reports a decode failure (R128). -/
def DecodeError.status : DecodeError → Status
  | .tooShort => .tooShort
  | .checksumMismatch => .checksumMismatch
  | .unknownHeader => .unknownHeader

/-- `code(r)`: the status of a DECODE (40_codec.md R91). -/
def DecodeResult.status : DecodeResult → Status
  | .ok _ _ => .ok
  | .err e => e.status

/-- The reason of an error event, as the status code it is reported with (R72). -/
def ErrorReason.status : ErrorReason → Status
  | .checksumMismatch => .checksumMismatch
  | .unknownHeader => .unknownHeader

/-- The step outcome codes (R105). -/
def StepOutcome.code : StepOutcome → Nat
  | .yield => 0
  | .resync => 1
  | .stopNeedData => 2
  | .stopWait => 3

/-- The outcomes that end a POLL (41_reassembler.md R110). -/
def StepOutcome.stops : StepOutcome → Bool
  | .yield => false
  | .resync => false
  | .stopNeedData => true
  | .stopWait => true

/-- The event kinds (R72). -/
def Event.kind : Event → Nat
  | .frame (.sensor _ _ _) => 0
  | .frame (.command _ _) => 1
  | .error _ => 2

end Sys2Proof.Machine
end

