-- ==== Sys2Proof/Machine/Operands.lean ====
section
/-! DEFINITION. The operands of the codec: the checksum (00_scope.md R10, 40_codec.md R81, R83), the header and the
fields of a window (30_encoding.md R63, R64), and the frame builder `enc` (40_codec.md R85). -/

namespace Sys2Proof.Machine

/-- `xor_all` (R10). -/
def xorAll : Bytes → Byte
  | [] => 0x00
  | b :: bs => b ^^^ xorAll bs

/-- The checksum function `chk` (R81). -/
def chk (s : Bytes) : Byte := xorAll s

/-- The verifier: byte `L - 1` of the window is the checksum of the bytes before it (R83). -/
def verify (w : Bytes) (L : Nat) : Bool := w[L - 1]? == some (chk (w.take (L - 1)))

/-- The 2-byte header of a sequence that has one (R9). -/
def headerOf : Bytes → Option Marker
  | m0 :: m1 :: _ => some ⟨m0, m1⟩
  | _ => none

/-- Byte `k` of a window that is long enough to have one. -/
def windowByte (w : Bytes) (k : Nat) : Byte := w.getD k 0

/-- The fields of a sensor window (R63). -/
def sensorFields (w : Bytes) : Frame :=
  .sensor (windowByte w 2) (windowByte w 3)
    (u32be (windowByte w 4) (windowByte w 5) (windowByte w 6) (windowByte w 7))

/-- The fields of a command window (R64). -/
def commandFields (w : Bytes) : Frame := .command (windowByte w 2) (windowByte w 3)

/-- The bytes of a frame from its header through its payload (R85: `p` and `q`). -/
def frameBody (c : Config) : Frame → Bytes
  | .sensor i t v => [c.sensMarker.m0, c.sensMarker.m1, i, t] ++ bigEndian v
  | .command a k => [c.cmdMarker.m0, c.cmdMarker.m1, a, k]

/-- The frame builder `enc`: the body and its checksum (R85). -/
def enc (c : Config) (f : Frame) : Bytes := frameBody c f ++ [chk (frameBody c f)]

/-- The length of a frame of this variant (30_encoding.md R59). -/
def Frame.length : Frame → Nat
  | .sensor _ _ _ => sensorLength
  | .command _ _ => commandLength

end Sys2Proof.Machine
end

