-- ==== Sys2Proof/Machine/Ops.lean ====
section
/-! DEFINITION. The operations the meanings share: the buffer (00_scope.md R11), the configuration check
(70_reset_and_hazards.md R147), responses and events, and the one way a scan takes effect (10_state.md R34).
There is no operation that takes an exception or returns from one: FCSR has no trap entry and no trap return
(60_exceptions.md R138, R139); its failures are result values and events. -/

namespace Sys2Proof

/-- Does a buffer of `n` bytes fit (10_state.md R21)? -/
def Capacity.admits : Capacity → Nat → Bool
  | .inf, _ => true
  | .finite k, n => n ≤ k

/-- Is a buffer of `n` bytes full (41_reassembler.md R104)? -/
def Capacity.isFull : Capacity → Nat → Bool
  | .inf, _ => false
  | .finite k, n => n == k

/-- The legal configurations (70_reset_and_hazards.md R147). A marker is a pair of bytes by its type. -/
def Config.legal (c : Config) : Bool :=
  c.sensMarker != c.cmdMarker &&
    match c.cap with
    | .inf => true
    | .finite k => 9 ≤ k

end Sys2Proof

namespace Sys2Proof.Machine

/-! ### The buffer -/

/-- The form every buffer keeps: it is no longer than the capacity (R21). A buffer is a sequence, so equal buffers are
equal data (log 10). -/
def Memory.wf (cap : Capacity) (buf : Bytes) : Bool := cap.admits buf.length

/-- The byte at an offset from the head; there is none at or past the tail (10_state.md R38). -/
def readByte (buf : Bytes) (i : Nat) : Option Byte := buf[i]?

/-- The buffer as (offset, byte) pairs, offsets rising (R38). -/
def Memory.cells (buf : Bytes) : List Host.Cell := buf.zipIdx.map (fun p => (p.2, p.1))

/-- `MemRead(i, n)` (R11). -/
def memRead (buf : Bytes) (i n : Nat) : Bytes := (buf.drop i).take n

/-- `BufAppend(b)` (R11). -/
def bufAppend (buf : Bytes) (b : Byte) : Bytes := buf ++ [b]

/-- `BufDrop(k)` (R11). -/
def bufDrop (buf : Bytes) (k : Nat) : Bytes := buf.drop k

/-! ### State updates -/

/-- Write the buffer. -/
def State.withBuf (s : State) (b : Bytes) : State := { s with buf := b }

/-- The consumer after an offer. -/
def State.withConsumer (s : State) (c : Consumer) : State := { s with consumer := c }

/-- `emit`, for each of a list of events in order (R11, R33). -/
def State.emit (s : State) (evs : List Event) : State := { s with events := s.events ++ evs }

/-- `respond`: the request being performed, the oldest pending one, leaves the request interface, and its response is
given (R27, R30). -/
def State.answer (s : State) (r : Response) : State :=
  { s with requests := s.requests.tail, responses := s.responses ++ [r] }

/-- The consumer's answer to an offer of events, and the consumer after it (R34). -/
def Consumer.offer (c : Consumer) : Bool × Consumer :=
  match c.answers with
  | [] => (c.after, c)
  | a :: rest => (a, { c with answers := rest })

/-! ### Scans -/

/-- What a STEP body, or a POLL, does: its outcome, the buffer it leaves and the events it emits (41_reassembler.md
R105, R110). -/
structure ScanResult where
  outcome : StepOutcome
  buf     : Bytes
  events  : List Event
deriving DecidableEq, Repr

/-- The response of a scan (10_state.md R30): STEP and POLL always respond OK (60_exceptions.md R128). -/
def ScanResult.response (r : ScanResult) : Response :=
  { status := .ok, len := r.buf.length, outcome := some r.outcome, events := some r.events }

/-- The scan takes effect: the buffer is written, the events are emitted and the response is given. -/
def State.applyScan (s : State) (r : ScanResult) : State :=
  ((s.withBuf r.buf).emit r.events).answer r.response

/-- A scan takes effect together with the consumer's acceptance of all its events, offered at once (R34,
41_reassembler.md R111). A scan with no event needs no acceptance. If the consumer does not accept, the scan does not
occur: the request stays pending, and only the consumer moves on (log 5). -/
def performScan (r : ScanResult) (s : State) : Host.Outcome State Fault Refusal :=
  match r.events with
  | [] => .next (s.applyScan r)
  | _ :: _ =>
    match s.consumer.offer with
    | (true, c) => .next ((s.withConsumer c).applyScan r)
    | (false, c) => .next (s.withConsumer c)

/-! ### Creation -/

/-- Instance creation, FCSR's power-on: an illegal configuration creates no instance (70_reset_and_hazards.md R146,
60_exceptions.md R134). -/
def create (c : Config) : Host.Outcome State Fault Refusal :=
  if c.legal then .next (State.fresh c) else .fault .illegalConfiguration

end Sys2Proof.Machine
end

