-- ==== Sys2Proof/Machine/Codec.lean ====
section
/-! DEFINITION. The Frame Codec (40_codec.md): the decode function (R90) and the four codec requests (R82, R86, R88,
R91). They write only their response (10_state.md R23). -/

namespace Sys2Proof.Machine

/-- `decode` (R90), with the precedence of R92. -/
def decodeFrame (c : Config) (w : Bytes) : DecodeResult :=
  match headerOf w with
  | none => .err .tooShort
  | some h =>
    match c.frameLength h with
    | none => .err .unknownHeader
    | some L =>
      if w.length < L then .err .tooShort
      else if verify w L then
        if h = c.sensMarker then .ok (sensorFields w) sensorLength
        else .ok (commandFields w) commandLength
      else .err .checksumMismatch

/-- CHECKSUM (R82). -/
def execChecksum (data : Bytes) (s : State) : Host.Outcome State Fault Refusal :=
  .next (s.answer { status := .ok, len := s.buf.length, chk := some (chk data) })

/-- ENCODE_SENSOR (R86). -/
def execEncodeSensor (sensorId dataType : Byte) (valueBits : Word32) (s : State) :
    Host.Outcome State Fault Refusal :=
  .next (s.answer
    { status := .ok, len := s.buf.length, bytes := some (enc s.cfg (.sensor sensorId dataType valueBits)) })

/-- ENCODE_COMMAND (R88). -/
def execEncodeCommand (actuatorId commandType : Byte) (s : State) : Host.Outcome State Fault Refusal :=
  .next (s.answer
    { status := .ok, len := s.buf.length, bytes := some (enc s.cfg (.command actuatorId commandType)) })

/-- DECODE (R91): the status is the code of the result, and no event is emitted. -/
def execDecode (w : Bytes) (s : State) : Host.Outcome State Fault Refusal :=
  .next (s.answer
    { status := (decodeFrame s.cfg w).status, len := s.buf.length, result := some (decodeFrame s.cfg w) })

end Sys2Proof.Machine
end

