-- ==== Sys2Proof/Machine/Reassembler.lean ====
section
/-! DEFINITION. The Stream Reassembler (41_reassembler.md): the boundary scanner (R106), POLL (R110) and the four
reassembler requests RESET, APPEND, STEP and POLL. -/

namespace Sys2Proof.Machine

/-- RESET (R102): the buffer is cleared silently; the configuration stays. -/
def execReset (s : State) : Host.Outcome State Fault Refusal :=
  .next ((s.withBuf []).answer { status := .ok, len := 0 })

/-- APPEND (R104): a full buffer takes nothing and answers BUFFER_FULL. -/
def execAppend (b : Byte) (s : State) : Host.Outcome State Fault Refusal :=
  if s.cfg.cap.isFull s.buf.length then
    .next (s.answer { status := .bufferFull, len := s.buf.length })
  else
    .next ((s.withBuf (bufAppend s.buf b)).answer { status := .ok, len := (bufAppend s.buf b).length })

/-- The body of STEP: the boundary scanner and its single-byte resynchronization (R106, R107, R108, R109). -/
def scanStep (c : Config) (buf : Bytes) : ScanResult :=
  match headerOf buf with
  | none => { outcome := .stopNeedData, buf := buf, events := [] }
  | some h =>
    match c.frameLength h with
    | some L =>
      if buf.length < L then { outcome := .stopWait, buf := buf, events := [] }
      else
        match decodeFrame c (memRead buf 0 L) with
        | .ok f _ => { outcome := .yield, buf := bufDrop buf L, events := [.frame f] }
        | .err _ => { outcome := .resync, buf := bufDrop buf 1, events := [.error .checksumMismatch] }
    | none => { outcome := .resync, buf := bufDrop buf 1, events := [.error .unknownHeader] }

/-- STEP bodies until one stops (R110), at most `fuel` of them. -/
def scanLoop (c : Config) : Nat → Bytes → ScanResult
  | 0, buf => { outcome := .stopNeedData, buf := buf, events := [] }
  | fuel + 1, buf =>
    let r := scanStep c buf
    if r.outcome.stops then r
    else
      let rest := scanLoop c fuel r.buf
      { rest with events := r.events ++ rest.events }

/-- The body of POLL. A STEP body that does not stop shortens the buffer (R113), so one body more than the buffer has
bytes always reaches the stop (R114; log 17). -/
def scanPoll (c : Config) (buf : Bytes) : ScanResult := scanLoop c (buf.length + 1) buf

/-- STEP (R106). -/
def execStep (s : State) : Host.Outcome State Fault Refusal := performScan (scanStep s.cfg s.buf) s

/-- POLL (R110, R111): one atomic request, its events accepted as a whole. -/
def execPoll (s : State) : Host.Outcome State Fault Refusal := performScan (scanPoll s.cfg s.buf) s

end Sys2Proof.Machine
end

