-- ==== Sys2Proof/Machine/Reserved.lean ====
section
/-! DEFINITION. Ill-formed request records (30_encoding.md R71, 60_exceptions.md R133). -/

namespace Sys2Proof.Machine

/-- RESERVED_REQUEST: the buffer is unchanged, no event is emitted, the answer is ILLEGAL_REQUEST, whatever the record
holds (R71). -/
def execReservedRequest (_record : Bytes) (s : State) : Host.Outcome State Fault Refusal :=
  .next (s.answer { status := .illegalRequest, len := s.buf.length })

end Sys2Proof.Machine
end

