-- ==== Sys2Proof/Machine/Wire.lean ====
section
/-! DEFINITION. The two wire frame rows of the opcode table. Their meaning is what the scanner does with such a window
at the head of the buffer (41_reassembler.md R106, R107, R108): see log 1. -/

namespace Sys2Proof.Machine

/-- The scan of a whole window with a recognized header: a checksum byte that is `chk` of the frame's body is a frame
extracted (R107), any other is one byte dropped (R108). -/
def windowScan (c : Config) (buf : Bytes) (f : Frame) (checksum : Byte) : ScanResult :=
  if checksum = chk (frameBody c f) then
    { outcome := .yield, buf := bufDrop buf f.length, events := [.frame f] }
  else { outcome := .resync, buf := bufDrop buf 1, events := [.error .checksumMismatch] }

/-- SENSOR_FRAME (30_encoding.md R60, R68). -/
def execSensorFrame (sensorId dataType : Byte) (valueBits : Word32) (checksum : Byte) (s : State) :
    Host.Outcome State Fault Refusal :=
  performScan (windowScan s.cfg s.buf (.sensor sensorId dataType valueBits) checksum) s

/-- COMMAND_FRAME (30_encoding.md R61, R68). -/
def execCommandFrame (actuatorId commandType checksum : Byte) (s : State) : Host.Outcome State Fault Refusal :=
  performScan (windowScan s.cfg s.buf (.command actuatorId commandType) checksum) s

end Sys2Proof.Machine
end

