-- ==== Sys2Proof/Machine/Dispatch.lean ====
section
/-! DEFINITION. The meaning of each instruction, one arm per constructor. -/

namespace Sys2Proof.Machine

def exec (i : Instr) (s : State) : Host.Outcome State Fault Refusal :=
  match i with
  | .append b => Sys2Proof.Machine.execAppend b s
  | .step => Sys2Proof.Machine.execStep s
  | .poll => Sys2Proof.Machine.execPoll s
  | .reset => Sys2Proof.Machine.execReset s
  | .encodeSensor sensorId dataType valueBits => Sys2Proof.Machine.execEncodeSensor sensorId dataType valueBits s
  | .encodeCommand actuatorId commandType => Sys2Proof.Machine.execEncodeCommand actuatorId commandType s
  | .decode w => Sys2Proof.Machine.execDecode w s
  | .checksum data => Sys2Proof.Machine.execChecksum data s
  | .reservedRequest record => Sys2Proof.Machine.execReservedRequest record s
  | .sensorFrame sensorId dataType valueBits chk => Sys2Proof.Machine.execSensorFrame sensorId dataType valueBits chk s
  | .commandFrame actuatorId commandType chk => Sys2Proof.Machine.execCommandFrame actuatorId commandType chk s

end Sys2Proof.Machine
end

