-- ==== Sys2Proof/Machine/Step.lean ====
section
/-! DEFINITION. One step: perform the oldest pending request (10_state.md R27, R29), and the placing of an instruction
of the opcode table where the next step takes it. -/

namespace Sys2Proof.Machine

/-- One step. FCSR takes no step on its own initiative: with no request pending it stops (R29, log 3). The instruction
itself removes the request it answers; a request that is held stays (R34). -/
def step (s : State) : Host.Outcome State Fault Refusal :=
  match s.requests with
  | [] => .fault .noRequest
  | record :: _ => exec (decodeRequest record) s

/-- `s` with one instruction of the opcode table as the next to run: a request record is presented before the pending
ones; a frame window is written over the buffer's head, and a STEP is presented, which runs it (logs 1, 2). -/
def State.withFetchWord (s : State) (nbits w : Nat) : State :=
  match tableRow nbits w with
  | .request record => { s with requests := record :: s.requests }
  | .wire window =>
    { s with buf := window ++ s.buf.drop window.length, requests := [0x02] :: s.requests }

end Sys2Proof.Machine
end

