-- ==== Sys2Proof/Machine/Instances.lean ====
section
/-! DEFINITION. Several FCSR instances, one per logical connection (10_state.md R36, 60_exceptions.md R142). -/

namespace Sys2Proof.Machine

/-- One step of instance number `k` of a list of instances; the order in which instances step is not fixed, so `k` is
any number (R142). No such instance, or one that stops, is no step. -/
def stepInstance (ss : List State) (k : Nat) : Option (List State) :=
  match ss[k]? with
  | none => none
  | some s =>
    match step s with
    | .next t => some (ss.set k t)
    | .fault _ => none
    | .refused _ => none

end Sys2Proof.Machine
end

