-- ==== Sys2Proof/Safety.lean ====
section
/-! DEFINITION. The words claims about FCSR use: the invariant of an instance, quiescence, marker-free bytes, runs of
requests and the stream they accept. Nothing here adds behaviour. -/

namespace Sys2Proof.Machine

/-- The invariant of an instance: a legal configuration (70_reset_and_hazards.md R147) and a buffer within the capacity
(10_state.md R21). -/
abbrev State.Inv (s : State) : Prop := s.cfg.legal = true ∧ Memory.wf s.cfg.cap s.buf = true

/-- A quiescent buffer (41_reassembler.md R116): fewer than two bytes, or a recognized header with too few bytes. -/
def quiescent (c : Config) (buf : Bytes) : Bool :=
  match headerOf buf with
  | none => true
  | some h =>
    match c.frameLength h with
    | none => false
    | some L => buf.length < L

/-- Bytes with no marker at any position (R120). -/
def markerFree (c : Config) : Bytes → Bool
  | m0 :: m1 :: rest => (c.frameLength ⟨m0, m1⟩).isNone && markerFree c (m1 :: rest)
  | _ => true

/-- Requests performed one after another (10_state.md R27): a total order of requests. A request that is held is not
performed, and the next one follows (R34). -/
def runRequests : List Instr → State → Host.Outcome State Fault Refusal
  | [], s => .next s
  | i :: is, s =>
    match exec i s with
    | .next t => runRequests is t
    | .fault r => .fault r
    | .refused r => .refused r

/-- The byte a request adds to the accepted stream: that of an APPEND answered OK (R119). -/
def acceptedBy (i : Instr) (s : State) : Bytes :=
  match i, exec i s with
  | .append b, .next t => if (t.responses.getLast?).map Response.status = some .ok then [b] else []
  | _, _ => []

/-- The stream a run of requests without RESET accepts (R119). -/
def acceptedStream : List Instr → State → Bytes
  | [], _ => []
  | i :: is, s =>
    acceptedBy i s ++
      match exec i s with
      | .next t => acceptedStream is t
      | .fault _ => []
      | .refused _ => []

/-- The new responses of a run that began in `s` and ended in `t`. -/
def newResponses (s t : State) : List Response := t.responses.drop s.responses.length

/-- The new events of a run that began in `s` and ended in `t`. -/
def newEvents (s t : State) : List Event := t.events.drop s.events.length

/-- A byte with one bit flipped (40_codec.md R97). -/
def flipBit (b : Nat) (x : Byte) : Byte := x ^^^ BitVec.twoPow 8 b

end Sys2Proof.Machine
end

