-- ==== Sys2Proof/Certificates/Slice0/Obligations.lean ====
section
/-! DEFINITION. The statements about FCSR, for the provers. `def Obligations.<Name> : Prop` each. A response's fields
that a request does not have are absent (`none`) by default. -/

open Sys2Proof Sys2Proof.Machine

/-! ### Creation and configuration -/

/-- 70_reset_and_hazards.md R147: the legal configurations. -/
def Obligations.LegalConfigurations : Prop :=
  ∀ c : Config,
    (c.legal = true ↔
      c.sensMarker ≠ c.cmdMarker ∧ (c.cap = .inf ∨ ∃ n, c.cap = .finite n ∧ 9 ≤ n)) ∧
    (c.sensMarker ≠ c.cmdMarker ↔ c.sensMarker.m0 ≠ c.cmdMarker.m0 ∨ c.sensMarker.m1 ≠ c.cmdMarker.m1)

/-- R146, 60_exceptions.md R134: creation checks the configuration; a new instance has an empty buffer and may be given
any request first. -/
def Obligations.CreationChecksConfiguration : Prop :=
  ∀ c : Config,
    (c.legal = false → create c = .fault .illegalConfiguration) ∧
    (c.legal = true → ∃ s, create c = .next s ∧ s.buf = [] ∧ s.cfg = c ∧
      ∀ i : Instr, i.channel = .request → ∃ t, exec i s = .next t ∧ t.responses.length = 1)

/-- The reset instance (logs 6, 7, 8, 9: its configuration and its idle interfaces are the model's choice) is one that
creation gives, and it meets the invariant. -/
def Obligations.ResetInstanceIsCreated : Prop :=
  create State.reset.cfg = .next State.reset ∧ State.reset.Inv

/-- Every step keeps the invariant: a legal configuration, and a buffer within the capacity (10_state.md R21). -/
def Obligations.StepKeepsInvariant : Prop :=
  ∀ s t : State, s.Inv → step s = .next t → t.Inv

/-- R25, R150: no request changes the configuration. -/
def Obligations.ConfigurationIsFixed : Prop :=
  ∀ (i : Instr) (s t : State), exec i s = .next t → t.cfg = s.cfg

/-! ### Encodings -/

/-- 00_scope.md R7: the frame length a header selects. -/
def Obligations.FrameLengthByHeader : Prop :=
  ∀ (c : Config) (m0 m1 : Byte), c.legal = true →
    (c.frameLength ⟨m0, m1⟩ = some 9 ↔ m0 = c.sensMarker.m0 ∧ m1 = c.sensMarker.m1) ∧
    (c.frameLength ⟨m0, m1⟩ = some 5 ↔ m0 = c.cmdMarker.m0 ∧ m1 = c.cmdMarker.m1) ∧
    (c.frameLength ⟨m0, m1⟩ = none ↔
      ¬(m0 = c.sensMarker.m0 ∧ m1 = c.sensMarker.m1) ∧ ¬(m0 = c.cmdMarker.m0 ∧ m1 = c.cmdMarker.m1))

/-- Words written out from 30_encoding.md R60, R61 and R70 decode to the instructions they stand for; the command marker
is the test instantiation of 92_eei_decisions.md D8. -/
def Obligations.SpecWordsDecode : Prop :=
  decodeRequest [0x01, 0xAA] = .append 0xAA ∧
  decodeRequest [0x02] = .step ∧
  decodeRequest [0x05, 0x05, 0x01, 0x41, 0xBC, 0x00, 0x00] = .encodeSensor 0x05 0x01 0x41BC0000 ∧
  decodeRequest [0x07, 0x02, 0xAA, 0xBB] = .decode [0xAA, 0xBB] ∧
  decodeRequest [0x07, 0x03, 0xAA, 0xBB] = .reservedRequest [0x07, 0x03, 0xAA, 0xBB] ∧
  decodeWire ⟨⟨0xAA, 0xBB⟩, ⟨0x5A, 0xA5⟩, .inf⟩ [0xAA, 0xBB, 0x05, 0x01, 0x41, 0xBC, 0x00, 0x00, 0xE8] =
    .ok (.sensorFrame 0x05 0x01 0x41BC0000 0xE8) ∧
  decodeWire ⟨⟨0xAA, 0xBB⟩, ⟨0x5A, 0xA5⟩, .inf⟩ [0x5A, 0xA5, 0x03, 0x07, 0xFB] = .ok (.commandFrame 0x03 0x07 0xFB)

/-- Decoding inverts encoding, for every well-formed instruction, on its channel, whatever the (distinct) markers; a
frame row also when more bytes of the stream follow it. -/
def Obligations.DecodeInvertsEncode : Prop :=
  ∀ (c : Config) (i : Instr), c.sensMarker ≠ c.cmdMarker → i.wellFormed = true →
    decodeOn c i.channel (encode c i) = .ok i ∧
    (i.channel = .wire → ∀ rest, decodeWire c (encode c i ++ rest) = .ok i)

/-- Every record is the encoding of the well-formed instruction it decodes to, so no bit of a record is dropped. -/
def Obligations.EncodeInvertsRequestDecode : Prop :=
  ∀ (c : Config) (record : Bytes),
    (decodeRequest record).wellFormed = true ∧ (decodeRequest record).channel = .request ∧
    encode c (decodeRequest record) = record

/-- A window that decodes begins with the encoding of what it decodes to. -/
def Obligations.EncodeInvertsWireDecode : Prop :=
  ∀ (c : Config) (w : Bytes) (i : Instr), decodeWire c w = .ok i →
    i.channel = .wire ∧ ∃ rest, w = encode c i ++ rest

/-- 30_encoding.md R71, 60_exceptions.md R133: which records with an opcode are ill-formed, and what they do. -/
def Obligations.IllFormedRecords : Prop :=
  ∀ (opcode : Byte) (args : Bytes),
    (decodeRequest (opcode :: args) = .reservedRequest (opcode :: args) ↔
      opcode = 0x00 ∨ 0x09 ≤ opcode.toNat ∨
      (opcode = 0x01 ∧ args.length + 1 ≠ 2) ∨
      (opcode = 0x02 ∧ args.length + 1 ≠ 1) ∨
      (opcode = 0x03 ∧ args.length + 1 ≠ 1) ∨
      (opcode = 0x04 ∧ args.length + 1 ≠ 1) ∨
      (opcode = 0x05 ∧ args.length + 1 ≠ 7) ∨
      (opcode = 0x06 ∧ args.length + 1 ≠ 3) ∨
      ((opcode = 0x07 ∨ opcode = 0x08) ∧ ∀ n w, args = n :: w → w.length ≠ n.toNat)) ∧
    (decodeRequest (opcode :: args) = .reservedRequest (opcode :: args) →
      ∀ (s : State) (rs : List Bytes), s.requests = (opcode :: args) :: rs →
        step s = .next { s with
          requests := rs
          responses := s.responses ++ [{ status := .illegalRequest, len := s.buf.length }] })

/-- The model's choice (log 4): a record with no byte is answered as an ill-formed one. -/
def Obligations.EmptyRecordIsIllegal : Prop :=
  ∀ (s : State) (rs : List Bytes), s.requests = [] :: rs →
    step s = .next { s with
      requests := rs
      responses := s.responses ++ [{ status := .illegalRequest, len := s.buf.length }] }

/-! ### The machine's step -/

/-- 10_state.md R27: a step performs the oldest pending request, whatever its operands. -/
def Obligations.StepPerformsOldestRequest : Prop :=
  ∀ (s : State) (i : Instr) (rs : List Bytes), i.channel = .request → i.wellFormed = true →
    s.requests = encode s.cfg i :: rs → step s = exec i s

/-- With a frame row's window at the head of the buffer, a STEP request runs that row's meaning (log 1). -/
def Obligations.StepRunsFrameAtHead : Prop :=
  ∀ (s : State) (i : Instr) (rest : Bytes) (rs : List Bytes), s.cfg.sensMarker ≠ s.cfg.cmdMarker →
    i.channel = .wire → s.buf = encode s.cfg i ++ rest → s.requests = [0x02] :: rs →
    step s = exec i s

/-- R29: FCSR takes no step on its own initiative (the model's stop, log 3). -/
def Obligations.NoRequestNoStep : Prop :=
  ∀ s : State, (step s = .fault .noRequest ↔ s.requests = [])

/-- What `withFetchWord` places is what the next step runs (logs 2, 13). -/
def Obligations.PlacedWordRunsNext : Prop :=
  ∀ (s : State) (nbits w : Nat) (i : Instr), s.cfg = Config.initial → decodeTableWord nbits w = some i →
    step (s.withFetchWord nbits w) = exec i (s.withFetchWord nbits w)

/-- 60_exceptions.md R127, R138, 41_reassembler.md R122: no request traps, faults or is refused, in any state. Three
choices of the model are in it: where the consumer refuses an event, the next state is the hold (log 5; the spec's I8
says only that the STEP or POLL is stuck); the frame rows are instructions (log 1); and an ill-formed request is answered
and not refused (log 12). -/
def Obligations.EveryRequestGoesOn : Prop :=
  ∀ (i : Instr) (s : State), ∃ t, exec i s = .next t

/-! ### The reassembler's requests -/

/-- 41_reassembler.md R104. -/
def Obligations.AppendAddsOneByte : Prop :=
  ∀ (s : State) (b : Byte),
    decodeRequest [0x01, b] = .append b ∧
    (∀ n, s.cfg.cap = .finite n → s.buf.length = n →
      exec (.append b) s = .next { s with
        requests := s.requests.tail
        responses := s.responses ++ [{ status := .bufferFull, len := s.buf.length }] }) ∧
    (s.cfg.cap = .inf ∨ (∃ n, s.cfg.cap = .finite n ∧ s.buf.length ≠ n) →
      exec (.append b) s = .next { s with
        buf := s.buf ++ [b]
        requests := s.requests.tail
        responses := s.responses ++ [{ status := .ok, len := s.buf.length + 1 }] })

/-- R102. -/
def Obligations.ResetClearsBuffer : Prop :=
  ∀ s : State,
    decodeRequest [0x04] = .reset ∧
    exec .reset s = .next { s with
      buf := []
      requests := s.requests.tail
      responses := s.responses ++ [{ status := .ok, len := 0 }] }

/-- 70_reset_and_hazards.md R148: after RESET, every request does what it does on a new instance with the same
configuration (and the same consumer). -/
def Obligations.ResetMatchesCreation : Prop :=
  ∀ (s t f : State) (i : Instr), exec .reset s = .next t → create s.cfg = .next f →
    t.buf = f.buf ∧ t.cfg = f.cfg ∧
    ∃ t' f', exec i t = .next t' ∧ exec i { f with consumer := t.consumer } = .next f' ∧
      t'.buf = f'.buf ∧ t'.cfg = f'.cfg ∧ t'.consumer = f'.consumer ∧
      newResponses t t' = newResponses f f' ∧ newEvents t t' = newEvents f f'

/-- 41_reassembler.md R106, with R107 and R108: each case of a STEP, the consumer accepting where there is an event. -/
def Obligations.StepScansOnce : Prop :=
  ∀ (s : State) (m0 m1 : Byte) (rest : Bytes) (c' : Consumer),
    decodeRequest [0x02] = .step ∧
    (s.buf.length < 2 →
      exec .step s = .next { s with
        requests := s.requests.tail
        responses := s.responses ++
          [{ status := .ok, len := s.buf.length, outcome := some .stopNeedData, events := some [] }] }) ∧
    (s.buf = m0 :: m1 :: rest → (⟨m0, m1⟩ : Marker) = s.cfg.sensMarker → s.buf.length < 9 →
      exec .step s = .next { s with
        requests := s.requests.tail
        responses := s.responses ++
          [{ status := .ok, len := s.buf.length, outcome := some .stopWait, events := some [] }] }) ∧
    (s.buf = m0 :: m1 :: rest → s.cfg.sensMarker ≠ s.cfg.cmdMarker → (⟨m0, m1⟩ : Marker) = s.cfg.cmdMarker →
      s.buf.length < 5 →
      exec .step s = .next { s with
        requests := s.requests.tail
        responses := s.responses ++
          [{ status := .ok, len := s.buf.length, outcome := some .stopWait, events := some [] }] }) ∧
    (∀ i t v3 v2 v1 v0 k tail, s.buf = m0 :: m1 :: i :: t :: v3 :: v2 :: v1 :: v0 :: k :: tail →
      (⟨m0, m1⟩ : Marker) = s.cfg.sensMarker → s.consumer.offer = (true, c') →
      (k = m0 ^^^ m1 ^^^ i ^^^ t ^^^ v3 ^^^ v2 ^^^ v1 ^^^ v0 →
        exec .step s = .next { s with
          buf := tail
          requests := s.requests.tail
          consumer := c'
          events := s.events ++ [.frame (.sensor i t (v3 ++ v2 ++ v1 ++ v0))]
          responses := s.responses ++
            [{ status := .ok, len := tail.length, outcome := some .yield,
               events := some [.frame (.sensor i t (v3 ++ v2 ++ v1 ++ v0))] }] }) ∧
      (k ≠ m0 ^^^ m1 ^^^ i ^^^ t ^^^ v3 ^^^ v2 ^^^ v1 ^^^ v0 →
        exec .step s = .next { s with
          buf := s.buf.tail
          requests := s.requests.tail
          consumer := c'
          events := s.events ++ [.error .checksumMismatch]
          responses := s.responses ++
            [{ status := .ok, len := s.buf.length - 1, outcome := some .resync,
               events := some [.error .checksumMismatch] }] })) ∧
    (∀ a t k tail, s.buf = m0 :: m1 :: a :: t :: k :: tail → s.cfg.sensMarker ≠ s.cfg.cmdMarker →
      (⟨m0, m1⟩ : Marker) = s.cfg.cmdMarker → s.consumer.offer = (true, c') →
      (k = m0 ^^^ m1 ^^^ a ^^^ t →
        exec .step s = .next { s with
          buf := tail
          requests := s.requests.tail
          consumer := c'
          events := s.events ++ [.frame (.command a t)]
          responses := s.responses ++
            [{ status := .ok, len := tail.length, outcome := some .yield,
               events := some [.frame (.command a t)] }] }) ∧
      (k ≠ m0 ^^^ m1 ^^^ a ^^^ t →
        exec .step s = .next { s with
          buf := s.buf.tail
          requests := s.requests.tail
          consumer := c'
          events := s.events ++ [.error .checksumMismatch]
          responses := s.responses ++
            [{ status := .ok, len := s.buf.length - 1, outcome := some .resync,
               events := some [.error .checksumMismatch] }] })) ∧
    (s.buf = m0 :: m1 :: rest → (⟨m0, m1⟩ : Marker) ≠ s.cfg.sensMarker → (⟨m0, m1⟩ : Marker) ≠ s.cfg.cmdMarker →
      s.consumer.offer = (true, c') →
      exec .step s = .next { s with
        buf := s.buf.tail
        requests := s.requests.tail
        consumer := c'
        events := s.events ++ [.error .unknownHeader]
        responses := s.responses ++
          [{ status := .ok, len := s.buf.length - 1, outcome := some .resync,
             events := some [.error .unknownHeader] }] })

/-- R110: POLL is the STEP body repeated until one stops, its events collected in order; what it answers, the consumer
accepting where there is an event. -/
def Obligations.PollRepeatsStep : Prop :=
  ∀ (s : State) (c' : Consumer),
    decodeRequest [0x03] = .poll ∧
    (∀ buf : Bytes,
      ((scanStep s.cfg buf).outcome.stops = true → scanPoll s.cfg buf = scanStep s.cfg buf) ∧
      ((scanStep s.cfg buf).outcome.stops = false →
        scanPoll s.cfg buf =
          { outcome := (scanPoll s.cfg (scanStep s.cfg buf).buf).outcome
            buf := (scanPoll s.cfg (scanStep s.cfg buf).buf).buf
            events := (scanStep s.cfg buf).events ++ (scanPoll s.cfg (scanStep s.cfg buf).buf).events })) ∧
    (scanPoll s.cfg s.buf).outcome.stops = true ∧
    ((scanPoll s.cfg s.buf).events = [] →
      exec .poll s = .next { s with
        requests := s.requests.tail
        responses := s.responses ++
          [{ status := .ok, len := s.buf.length, outcome := some (scanPoll s.cfg s.buf).outcome,
             events := some [] }] }) ∧
    ((scanPoll s.cfg s.buf).events ≠ [] → s.consumer.offer = (true, c') →
      exec .poll s = .next { s with
        buf := (scanPoll s.cfg s.buf).buf
        requests := s.requests.tail
        consumer := c'
        events := s.events ++ (scanPoll s.cfg s.buf).events
        responses := s.responses ++
          [{ status := .ok, len := (scanPoll s.cfg s.buf).buf.length,
             outcome := some (scanPoll s.cfg s.buf).outcome,
             events := some (scanPoll s.cfg s.buf).events }] })

/-- R112, R114: with a consumer that accepts, a POLL is a run of between 1 and max(n, 1) STEPs of which only the last
stops: same buffer, same events, same final outcome, and at most n - 1 events. -/
def Obligations.PollIsBoundedRunOfSteps : Prop :=
  ∀ s : State, s.consumer = ⟨[], true⟩ →
    ∃ (k : Nat) (t u : State) (last : Response),
      1 ≤ k ∧ k ≤ max s.buf.length 1 ∧
      runRequests (List.replicate k .step) s = .next t ∧ exec .poll s = .next u ∧
      t.buf = u.buf ∧ t.events = u.events ∧ t.cfg = u.cfg ∧
      (newResponses s t).length = k ∧
      (∀ j r, (newResponses s t)[j]? = some r →
        ∃ o, r.outcome = some o ∧ (o.stops = true ↔ j + 1 = k)) ∧
      newResponses s u = [last] ∧ (newResponses s t).getLast?.bind Response.outcome = last.outcome ∧
      (newEvents s u).length ≤ s.buf.length - 1

/-- 10_state.md R34: what the scans do when the consumer's next answer is no. A STEP or POLL has an event exactly when
the buffer is not quiescent; then it does not occur, which is a next state in which only the consumer has moved on
(log 5). With no event it is answered with its scan's own outcome. A frame row (log 1) always has an event. -/
def Obligations.HeldScanDoesNotOccur : Prop :=
  ∀ (s : State) (c' : Consumer), s.consumer.offer = (false, c') →
    ((scanStep s.cfg s.buf).events = [] ↔ quiescent s.cfg s.buf = true) ∧
    ((scanPoll s.cfg s.buf).events = [] ↔ quiescent s.cfg s.buf = true) ∧
    ((scanStep s.cfg s.buf).events ≠ [] → exec .step s = .next { s with consumer := c' }) ∧
    ((scanStep s.cfg s.buf).events = [] →
      exec .step s = .next { s with
        requests := s.requests.tail
        responses := s.responses ++
          [{ status := .ok, len := s.buf.length, outcome := some (scanStep s.cfg s.buf).outcome,
             events := some [] }] }) ∧
    ((scanPoll s.cfg s.buf).events ≠ [] → exec .poll s = .next { s with consumer := c' }) ∧
    ((scanPoll s.cfg s.buf).events = [] →
      exec .poll s = .next { s with
        requests := s.requests.tail
        responses := s.responses ++
          [{ status := .ok, len := s.buf.length, outcome := some (scanPoll s.cfg s.buf).outcome,
             events := some [] }] }) ∧
    (∀ i : Instr, i.channel = .wire → exec i s = .next { s with consumer := c' })

/-- R154, R34: only the consumer lifts a hold of a STEP or POLL that has an event; one step for each refusal is the
model's choice (log 5). The consumers are all covered: `n` refusals then a listed acceptance; `n` listed refusals
(perhaps none) then one that accepts ever after; and `n` listed refusals then one that never accepts. -/
def Obligations.OnlyConsumerLiftsHold : Prop :=
  ∀ (s : State) (i : Instr) (rs : List Bytes), (i = .step ∨ i = .poll) →
    s.requests = encode s.cfg i :: rs →
    (scanStep s.cfg s.buf).events ≠ [] →
    (∀ (n : Nat) (more : List Bool), s.consumer.answers = List.replicate n false ++ true :: more →
      Host.Core.run Sys2Proof.core n s =
        .next { s with consumer := { s.consumer with answers := true :: more } } ∧
      ∃ t, Host.Core.run Sys2Proof.core (n + 1) s = .next t ∧
        exec i { s with consumer := { s.consumer with answers := true :: more } } = .next t ∧ t.requests = rs ∧
        t.consumer = { s.consumer with answers := more } ∧ t.buf.length < s.buf.length) ∧
    (∀ n : Nat, s.consumer = ⟨List.replicate n false, true⟩ →
      Host.Core.run Sys2Proof.core n s = .next { s with consumer := ⟨[], true⟩ } ∧
      ∃ t, Host.Core.run Sys2Proof.core (n + 1) s = .next t ∧
        exec i { s with consumer := ⟨[], true⟩ } = .next t ∧ t.requests = rs ∧
        t.consumer = ⟨[], true⟩ ∧ t.buf.length < s.buf.length) ∧
    (∀ n : Nat, s.consumer = ⟨List.replicate n false, false⟩ →
      ∀ m : Nat, Host.Core.run Sys2Proof.core m s =
        .next { s with consumer := ⟨List.replicate (n - m) false, false⟩ })

/-! ### The codec's requests -/

/-- 40_codec.md R86, R85: the nine bytes of a sensor frame, for every operand. -/
def Obligations.EncodeSensorBuildsFrame : Prop :=
  ∀ (s : State) (i t v3 v2 v1 v0 : Byte),
    decodeRequest [0x05, i, t, v3, v2, v1, v0] = .encodeSensor i t (v3 ++ v2 ++ v1 ++ v0) ∧
    exec (.encodeSensor i t (v3 ++ v2 ++ v1 ++ v0)) s = .next { s with
      requests := s.requests.tail
      responses := s.responses ++
        [{ status := .ok, len := s.buf.length,
           bytes := some [s.cfg.sensMarker.m0, s.cfg.sensMarker.m1, i, t, v3, v2, v1, v0,
             s.cfg.sensMarker.m0 ^^^ s.cfg.sensMarker.m1 ^^^ i ^^^ t ^^^ v3 ^^^ v2 ^^^ v1 ^^^ v0] }] }

/-- R88: the five bytes of a command frame, for every operand. -/
def Obligations.EncodeCommandBuildsFrame : Prop :=
  ∀ (s : State) (a k : Byte),
    decodeRequest [0x06, a, k] = .encodeCommand a k ∧
    exec (.encodeCommand a k) s = .next { s with
      requests := s.requests.tail
      responses := s.responses ++
        [{ status := .ok, len := s.buf.length,
           bytes := some [s.cfg.cmdMarker.m0, s.cfg.cmdMarker.m1, a, k,
             s.cfg.cmdMarker.m0 ^^^ s.cfg.cmdMarker.m1 ^^^ a ^^^ k] }] }

/-- R91, R90, R92, R93, R94: DECODE answers the first failure that holds, or the frame; bytes after the window are not
read; the status is the result's code, and no event is emitted. -/
def Obligations.DecodeAnswersResult : Prop :=
  ∀ (s : State) (w : Bytes), s.cfg.sensMarker ≠ s.cfg.cmdMarker →
    (∀ n : Byte, w.length = n.toNat → decodeRequest (0x07 :: n :: w) = .decode w) ∧
    ∃ r : DecodeResult,
      exec (.decode w) s = .next { s with
        requests := s.requests.tail
        responses := s.responses ++ [{ status := r.status, len := s.buf.length, result := some r }] } ∧
      (w.length < 2 → r = .err .tooShort) ∧
      (∀ m0 m1 rest, w = m0 :: m1 :: rest →
        ((⟨m0, m1⟩ : Marker) ≠ s.cfg.sensMarker → (⟨m0, m1⟩ : Marker) ≠ s.cfg.cmdMarker →
          r = .err .unknownHeader) ∧
        ((⟨m0, m1⟩ : Marker) = s.cfg.sensMarker → w.length < 9 → r = .err .tooShort) ∧
        ((⟨m0, m1⟩ : Marker) = s.cfg.cmdMarker → w.length < 5 → r = .err .tooShort) ∧
        (∀ i t v3 v2 v1 v0 k tail, (⟨m0, m1⟩ : Marker) = s.cfg.sensMarker →
          rest = i :: t :: v3 :: v2 :: v1 :: v0 :: k :: tail →
          r = if k = m0 ^^^ m1 ^^^ i ^^^ t ^^^ v3 ^^^ v2 ^^^ v1 ^^^ v0
            then .ok (.sensor i t (v3 ++ v2 ++ v1 ++ v0)) 9 else .err .checksumMismatch) ∧
        (∀ a t k tail, (⟨m0, m1⟩ : Marker) = s.cfg.cmdMarker → rest = a :: t :: k :: tail →
          r = if k = m0 ^^^ m1 ^^^ a ^^^ t then .ok (.command a t) 5 else .err .checksumMismatch))

/-- R82: CHECKSUM answers the XOR of its bytes, 0x00 for none. -/
def Obligations.ChecksumXorsAllBytes : Prop :=
  ∀ (s : State) (data : Bytes),
    (∀ n : Byte, data.length = n.toNat → decodeRequest (0x08 :: n :: data) = .checksum data) ∧
    exec (.checksum data) s = .next { s with
      requests := s.requests.tail
      responses := s.responses ++
        [{ status := .ok, len := s.buf.length, chk := some (data.foldl (· ^^^ ·) 0x00) }] }

/-- 30_encoding.md R71: an ill-formed record changes nothing and is answered ILLEGAL_REQUEST. -/
def Obligations.ReservedRequestAnswered : Prop :=
  ∀ (s : State) (record : Bytes),
    exec (.reservedRequest record) s = .next { s with
      requests := s.requests.tail
      responses := s.responses ++ [{ status := .illegalRequest, len := s.buf.length }] }

/-! ### The frame rows (their meaning as instructions is the model's reading, log 1) -/

/-- SENSOR_FRAME, the consumer accepting: a window that verifies is extracted (R107), any other is resynchronized
(R108). -/
def Obligations.SensorFrameRow : Prop :=
  ∀ (s : State) (i t v3 v2 v1 v0 k : Byte) (c' : Consumer), s.consumer.offer = (true, c') →
    (k = s.cfg.sensMarker.m0 ^^^ s.cfg.sensMarker.m1 ^^^ i ^^^ t ^^^ v3 ^^^ v2 ^^^ v1 ^^^ v0 →
      exec (.sensorFrame i t (v3 ++ v2 ++ v1 ++ v0) k) s = .next { s with
        buf := s.buf.drop 9
        requests := s.requests.tail
        consumer := c'
        events := s.events ++ [.frame (.sensor i t (v3 ++ v2 ++ v1 ++ v0))]
        responses := s.responses ++
          [{ status := .ok, len := s.buf.length - 9, outcome := some .yield,
             events := some [.frame (.sensor i t (v3 ++ v2 ++ v1 ++ v0))] }] }) ∧
    (k ≠ s.cfg.sensMarker.m0 ^^^ s.cfg.sensMarker.m1 ^^^ i ^^^ t ^^^ v3 ^^^ v2 ^^^ v1 ^^^ v0 →
      exec (.sensorFrame i t (v3 ++ v2 ++ v1 ++ v0) k) s = .next { s with
        buf := s.buf.drop 1
        requests := s.requests.tail
        consumer := c'
        events := s.events ++ [.error .checksumMismatch]
        responses := s.responses ++
          [{ status := .ok, len := s.buf.length - 1, outcome := some .resync,
             events := some [.error .checksumMismatch] }] })

/-- COMMAND_FRAME, the consumer accepting. -/
def Obligations.CommandFrameRow : Prop :=
  ∀ (s : State) (a t k : Byte) (c' : Consumer), s.consumer.offer = (true, c') →
    (k = s.cfg.cmdMarker.m0 ^^^ s.cfg.cmdMarker.m1 ^^^ a ^^^ t →
      exec (.commandFrame a t k) s = .next { s with
        buf := s.buf.drop 5
        requests := s.requests.tail
        consumer := c'
        events := s.events ++ [.frame (.command a t)]
        responses := s.responses ++
          [{ status := .ok, len := s.buf.length - 5, outcome := some .yield,
             events := some [.frame (.command a t)] }] }) ∧
    (k ≠ s.cfg.cmdMarker.m0 ^^^ s.cfg.cmdMarker.m1 ^^^ a ^^^ t →
      exec (.commandFrame a t k) s = .next { s with
        buf := s.buf.drop 1
        requests := s.requests.tail
        consumer := c'
        events := s.events ++ [.error .checksumMismatch]
        responses := s.responses ++
          [{ status := .ok, len := s.buf.length - 1, outcome := some .resync,
             events := some [.error .checksumMismatch] }] })

/-! ### Frames: what each request leaves unchanged -/

/-- 10_state.md R23, 40_codec.md R99: the codec requests (and an ill-formed one) always answer, and write only their
response: every byte of the buffer reads as before, and nothing is emitted. -/
def Obligations.CodecWritesOnlyResponse : Prop :=
  ∀ (s : State) (i : Instr),
    ((∃ a b v, i = .encodeSensor a b v) ∨ (∃ a b, i = .encodeCommand a b) ∨ (∃ w, i = .decode w) ∨
      (∃ w, i = .checksum w) ∨ (∃ r, i = .reservedRequest r)) →
    ∃ t, exec i s = .next t ∧
      t.cfg = s.cfg ∧ t.buf = s.buf ∧ (∀ a, readByte t.buf a = readByte s.buf a) ∧ t.consumer = s.consumer ∧
      t.events = s.events ∧ t.requests = s.requests.tail ∧
      ∃ r, t.responses = s.responses ++ [r] ∧ r.len = s.buf.length ∧
        ((∃ a b v, i = .encodeSensor a b v) ∨ (∃ a b, i = .encodeCommand a b) ∨ (∃ w, i = .checksum w) →
          r.status = .ok) ∧
        (∀ w, i = .decode w → ∃ d, r.result = some d ∧ r.status = d.status)

/-- R22: how each request changes the buffer, byte by byte: APPEND adds at the tail or nothing, STEP removes 0, 1, 5 or
9 bytes from the head, POLL removes some, RESET removes all; no byte inside is rewritten or moved against another. -/
def Obligations.BufferDiscipline : Prop :=
  ∀ s t : State,
    (∀ b, exec (.append b) s = .next t →
      (t.buf = s.buf ∨ t.buf = s.buf ++ [b]) ∧ (∀ a < s.buf.length, readByte t.buf a = readByte s.buf a) ∧
      t.events = s.events ∧ t.consumer = s.consumer) ∧
    (exec .step s = .next t → ∃ d, (d = 0 ∨ d = 1 ∨ d = 5 ∨ d = 9) ∧ d ≤ s.buf.length ∧
      t.buf.length = s.buf.length - d ∧ ∀ a, readByte t.buf a = readByte s.buf (d + a)) ∧
    (exec .poll s = .next t → ∃ d, d ≤ s.buf.length ∧
      t.buf.length = s.buf.length - d ∧ ∀ a, readByte t.buf a = readByte s.buf (d + a)) ∧
    (exec .reset s = .next t → t.buf = [] ∧ t.events = s.events ∧ t.consumer = s.consumer)

/-- R27, R30, R31: a request that is performed leaves the request interface and gives exactly one response, whose `len`
is the buffer's length after it and whose events are the events emitted; only a scan can be held instead. -/
def Obligations.OneResponsePerRequest : Prop :=
  ∀ (i : Instr) (s t : State), exec i s = .next t →
    (∃ r, t.responses = s.responses ++ [r] ∧ t.requests = s.requests.tail ∧ r.len = t.buf.length ∧
      t.events = s.events ++ r.events.getD []) ∨
    ((i = .step ∨ i = .poll ∨ i.channel = .wire) ∧ s.consumer.offer.1 = false ∧
      t = { s with consumer := s.consumer.offer.2 })

/-- R30: which fields the response to each request has. -/
def Obligations.ResponseFieldsPresent : Prop :=
  ∀ (i : Instr) (s t : State) (r : Response), i.channel = .request → exec i s = .next t →
    t.responses = s.responses ++ [r] →
    (r.outcome.isSome = true ↔ i = .step ∨ i = .poll) ∧
    (r.events.isSome = true ↔ i = .step ∨ i = .poll) ∧
    (i = .step → ∀ evs, r.events = some evs → evs.length ≤ 1) ∧
    (r.bytes.isSome = true ↔ (∃ a b v, i = .encodeSensor a b v) ∨ ∃ a b, i = .encodeCommand a b) ∧
    (∀ bs, r.bytes = some bs → bs.length = 9 ∨ bs.length = 5) ∧
    (r.result.isSome = true ↔ ∃ w, i = .decode w) ∧
    (r.chk.isSome = true ↔ ∃ w, i = .checksum w)

/-- R24: nothing reads what was answered or emitted before, nor the requests behind the one performed. Two instances
that agree on configuration, buffer and consumer answer the same. -/
def Obligations.HistoryIsNeverRead : Prop :=
  ∀ (i : Instr) (s s' t t' : State), s.cfg = s'.cfg → s.buf = s'.buf → s.consumer = s'.consumer →
    exec i s = .next t → exec i s' = .next t' →
    t.buf = t'.buf ∧ t.cfg = t'.cfg ∧ t.consumer = t'.consumer ∧
    newResponses s t = newResponses s' t' ∧ newEvents s t = newEvents s' t'

/-- R23: what a codec request answers depends on its operands and the configuration only; `len` aside, the response is
the same whatever the buffer holds. -/
def Obligations.CodecReadsNoState : Prop :=
  ∀ (s s' t t' : State) (i : Instr) (r r' : Response),
    ((∃ a b v, i = .encodeSensor a b v) ∨ (∃ a b, i = .encodeCommand a b) ∨ (∃ w, i = .decode w) ∨
      (∃ w, i = .checksum w)) →
    s.cfg = s'.cfg → exec i s = .next t → exec i s' = .next t' →
    newResponses s t = [r] → newResponses s' t' = [r'] →
    { r with len := 0 } = { r' with len := 0 }

/-! ### Laws of the codec -/

/-- 00_scope.md R10, 40_codec.md R81: the XOR of all bytes. -/
def Obligations.XorAllLaws : Prop :=
  xorAll [] = 0x00 ∧
  (∀ s : Bytes, xorAll s = s.foldl (· ^^^ ·) 0x00) ∧
  (∀ s t : Bytes, xorAll (s ++ t) = xorAll s ^^^ xorAll t) ∧
  (∀ s t : Bytes, s.Perm t → xorAll s = xorAll t) ∧
  (∀ (s : Bytes) (x : Byte), chk (s ++ [x, x]) = chk s)

/-- R83, 30_encoding.md R67: a window verifies exactly when its last byte is the checksum of those before it, which is
when the XOR of the window is zero; bytes after the window take no part. -/
def Obligations.VerifyIsZeroXor : Prop :=
  ∀ (w extra : Bytes) (L : Nat), 1 ≤ L → L ≤ w.length →
    (verify w L = true ↔ w[L - 1]? = some (chk (w.take (L - 1)))) ∧
    (verify w L = true ↔ xorAll (w.take L) = 0x00) ∧
    verify (w.take L ++ extra) L = verify w L

/-- R87, R89: every encoder output is a valid frame of its variant. -/
def Obligations.EncoderOutputsAreValid : Prop :=
  ∀ (s t : State) (i : Instr) (bs : Bytes), exec i s = .next t →
    (newResponses s t).map Response.bytes = [some bs] →
    xorAll bs = 0x00 ∧
    ((∃ a b v, i = .encodeSensor a b v) → headerOf bs = some s.cfg.sensMarker ∧ bs.length = 9 ∧ verify bs 9 = true) ∧
    ((∃ a b, i = .encodeCommand a b) → headerOf bs = some s.cfg.cmdMarker ∧ bs.length = 5 ∧ verify bs 5 = true)

/-- R95: decoding what was encoded gives the frame back, bit for bit. -/
def Obligations.DecodeInvertsFrameEncoding : Prop :=
  ∀ (c : Config) (f : Frame), c.sensMarker ≠ c.cmdMarker →
    decodeFrame c (enc c f) = .ok f (enc c f).length

/-- R96: encoding what was decoded gives the window back, so two valid windows of one frame are equal. -/
def Obligations.FrameEncodingInvertsDecode : Prop :=
  ∀ (c : Config) (w : Bytes) (f : Frame) (L : Nat), decodeFrame c w = .ok f L →
    enc c f = w.take L ∧
    ∀ (w' : Bytes) (L' : Nat), decodeFrame c w' = .ok f L' → w'.take L' = w.take L

/-- R97: a single flipped bit after the header is a checksum mismatch; in the header it is an unknown header, unless it
makes the other marker, and then the window is read as the other variant. -/
def Obligations.SingleBitErrors : Prop :=
  ∀ (c : Config) (f : Frame) (j b : Nat), c.sensMarker ≠ c.cmdMarker → j < (enc c f).length → b < 8 →
    (2 ≤ j → decodeFrame c ((enc c f).modify j (flipBit b)) = .err .checksumMismatch) ∧
    (j < 2 → ∀ h, headerOf ((enc c f).modify j (flipBit b)) = some h →
      (h ≠ c.sensMarker → h ≠ c.cmdMarker →
        decodeFrame c ((enc c f).modify j (flipBit b)) = .err .unknownHeader) ∧
      (h = c.sensMarker → (∃ a k, f = .command a k) ∧
        decodeFrame c ((enc c f).modify j (flipBit b)) = .err .tooShort) ∧
      (h = c.cmdMarker → (∃ i t v, f = .sensor i t v) ∧
        decodeFrame c ((enc c f).modify j (flipBit b)) =
          decodeFrame c (((enc c f).modify j (flipBit b)).take 5)))

/-- R98: the checksum does not detect every error. The same bit flipped in two bytes after the header gives a frame that
was not sent; so does any change that keeps the XOR zero. -/
def Obligations.UndetectedErrors : Prop :=
  ∀ (c : Config) (f : Frame), c.sensMarker ≠ c.cmdMarker →
    (∀ j k b : Nat, 2 ≤ j → j < k → k < (enc c f).length → b < 8 →
      xorAll (((enc c f).modify j (flipBit b)).modify k (flipBit b)) = 0x00 ∧
      ∃ f', f' ≠ f ∧
        decodeFrame c (((enc c f).modify j (flipBit b)).modify k (flipBit b)) = .ok f' (enc c f).length) ∧
    (∀ w : Bytes, w.length = (enc c f).length → w.take 2 = (enc c f).take 2 → xorAll w = 0x00 →
      ∃ f', decodeFrame c w = .ok f' (enc c f).length ∧ enc c f' = w)

/-! ### Laws of the reassembler -/

/-- 41_reassembler.md R113: what a STEP that is performed does to the length of the buffer. -/
def Obligations.StepMakesProgress : Prop :=
  ∀ (s t : State) (r : Response), exec .step s = .next t → newResponses s t = [r] →
    (r.outcome = some .yield → ∃ h L, headerOf s.buf = some h ∧ s.cfg.frameLength h = some L ∧
      t.buf.length + L = s.buf.length ∧ 1 ≤ L) ∧
    (r.outcome = some .resync → t.buf.length + 1 = s.buf.length) ∧
    (r.outcome = some .stopNeedData ∨ r.outcome = some .stopWait → t.buf = s.buf)

/-- R116: a STEP stops exactly on a quiescent buffer, and a POLL leaves one: at most 8 bytes. -/
def Obligations.PollLeavesQuiescent : Prop :=
  ∀ s t : State,
    ((scanStep s.cfg s.buf).outcome.stops = true ↔
      s.buf.length < 2 ∨ ∃ h L, headerOf s.buf = some h ∧ s.cfg.frameLength h = some L ∧ s.buf.length < L) ∧
    (exec .poll s = .next t → (∃ r, newResponses s t = [r]) →
      quiescent t.cfg t.buf = true ∧ t.buf.length ≤ 8 ∧
      (t.buf.length ≤ 1 ∨
        (headerOf t.buf = some t.cfg.sensMarker ∧ 2 ≤ t.buf.length ∧ t.buf.length ≤ 8) ∨
        (headerOf t.buf = some t.cfg.cmdMarker ∧ 2 ≤ t.buf.length ∧ t.buf.length ≤ 4)))

/-- R115: a full buffer never deadlocks: the next STEP is YIELD or RESYNC, and after a POLL an APPEND succeeds. -/
def Obligations.FullBufferDrains : Prop :=
  ∀ (s : State) (n : Nat) (b : Byte) (c' : Consumer), s.cfg.legal = true → s.cfg.cap = .finite n → s.buf.length = n →
    s.consumer.offer = (true, c') →
    (∃ t r, exec .step s = .next t ∧ newResponses s t = [r] ∧
      (r.outcome = some .yield ∨ r.outcome = some .resync)) ∧
    (∃ u v r, exec .poll s = .next u ∧ u.buf.length < n ∧
      exec (.append b) u = .next v ∧ newResponses u v = [r] ∧ r.status = .ok ∧ v.buf = u.buf ++ [b])

/-- R117: every frame a STEP or POLL emits is the content of a valid window that stood in the buffer. -/
def Obligations.OnlyValidFramesEmitted : Prop :=
  ∀ (s t : State) (i : Instr) (f : Frame), (i = .step ∨ i = .poll) → exec i s = .next t →
    Event.frame f ∈ newEvents s t →
    enc s.cfg f <:+: s.buf ∧ xorAll (enc s.cfg f) = 0x00

/-- R118: a POLL right after a POLL emits nothing and leaves the buffer. -/
def Obligations.PollIsIdempotent : Prop :=
  ∀ (s t : State) (r : Response), exec .poll s = .next t → newResponses s t = [r] →
    ∃ u r', exec .poll t = .next u ∧ newResponses t u = [r'] ∧ r'.events = some [] ∧ u.buf = t.buf ∧
      u.events = t.events

/-- 20_memory.md R43: stream order is buffer order. After a run of requests without RESET on an empty buffer, byte `k`
of the accepted stream, while it remains, stands at offset `k - d`, where `d` bytes were removed. -/
def Obligations.StreamOrderIsBufferOrder : Prop :=
  ∀ (is : List Instr) (s t : State), s.buf = [] → (∀ i ∈ is, i.channel = .request ∧ i ≠ .reset) →
    runRequests is s = .next t →
    ∃ d, t.buf.length + d = (acceptedStream is s).length ∧
      ∀ k, d ≤ k → readByte t.buf (k - d) = (acceptedStream is s)[k]?

/-- 41_reassembler.md R119: whatever the requests between, the events emitted are a prefix of those one POLL gives on
the accepted stream, and after a POLL that takes effect they are exactly those, and the buffer is the one it leaves. -/
def Obligations.StreamDeterminism : Prop :=
  ∀ (is : List Instr) (s t : State), s.buf = [] → (∀ i ∈ is, i.channel = .request ∧ i ≠ .reset) →
    runRequests is s = .next t →
    newEvents s t <+: (scanPoll s.cfg (acceptedStream is s)).events ∧
    t.events = s.events ++ newEvents s t ∧
    ∀ u r, exec .poll t = .next u → newResponses t u = [r] →
      newEvents s u = (scanPoll s.cfg (acceptedStream is s)).events ∧
      u.buf = (scanPoll s.cfg (acceptedStream is s)).buf

/-- R120: bytes with no marker at any position, appended to an empty buffer, give one UnknownHeader for each but the
last, which stays. -/
def Obligations.MarkerFreeBytesResync : Prop :=
  ∀ (s : State) (bs : Bytes), s.buf = [] → s.cfg.cap.admits bs.length = true → markerFree s.cfg bs = true →
    s.consumer = ⟨[], true⟩ →
    ∃ t u, runRequests (appends bs) s = .next t ∧ t.buf = bs ∧ exec .poll t = .next u ∧
      newEvents s u = List.replicate (bs.length - 1) (.error .unknownHeader) ∧
      u.buf = bs.drop (bs.length - 1) ∧
      (∀ j < bs.length - 1, (scanStep s.cfg (bs.drop j)).outcome = .resync ∧
        (scanStep s.cfg (bs.drop j)).buf = bs.drop (j + 1)) ∧
      (scanStep s.cfg (bs.drop (bs.length - 1))).outcome = .stopNeedData

/-- 30_encoding.md R74: APPENDS is one APPEND per byte, in order; with a finite capacity a prefix that fits is taken. -/
def Obligations.AppendsTakesWhatFits : Prop :=
  ∀ (s : State) (bs : Bytes), Memory.wf s.cfg.cap s.buf = true →
    appends bs = bs.map Instr.append ∧
    ∃ t, runRequests (appends bs) s = .next t ∧ (newResponses s t).length = bs.length ∧ t.events = s.events ∧
      (s.cfg.cap = .inf → t.buf = s.buf ++ bs) ∧
      (∀ n, s.cfg.cap = .finite n → t.buf = s.buf ++ bs.take (n - s.buf.length))

/-- 10_state.md R36, 60_exceptions.md R142: a step of one instance leaves every other as it is, and what it does depends
on that instance alone. -/
def Obligations.InstancesAreIndependent : Prop :=
  ∀ (ss ss' : List State) (k : Nat), stepInstance ss k = some ss' →
    (∀ j, j ≠ k → ss'[j]? = ss[j]?) ∧
    ∃ s t, ss[k]? = some s ∧ step s = .next t ∧ ss'[k]? = some t

/-- 60_exceptions.md R128, 41_reassembler.md R105, 30_encoding.md R72: the numeric codes. -/
def Obligations.NumericCodes : Prop :=
  [Status.ok, .tooShort, .checksumMismatch, .unknownHeader, .bufferFull, .illegalRequest].map Status.code =
    [0x00, 0x01, 0x02, 0x03, 0x04, 0x05] ∧
  [StepOutcome.yield, .resync, .stopNeedData, .stopWait].map StepOutcome.code = [0, 1, 2, 3] ∧
  (∀ i t v, (Event.frame (.sensor i t v)).kind = 0) ∧
  (∀ a k, (Event.frame (.command a k)).kind = 1) ∧
  (∀ r, (Event.error r).kind = 2 ∧ (r.status.code = 0x02 ∨ r.status.code = 0x03))

/-- 30_encoding.md R60, R61: the frames as one 72-bit or 40-bit big-endian number, field by field, and the checksum byte
of an encoded frame. -/
def Obligations.FrameWordNumbering : Prop :=
  ∀ (c : Config) (i t : Byte) (v : Word32) (a y k : Byte),
    windowWord (encode c (.sensorFrame i t v k)) =
      c.sensMarker.m0.toNat * 2 ^ 64 + c.sensMarker.m1.toNat * 2 ^ 56 + i.toNat * 2 ^ 48 + t.toNat * 2 ^ 40 +
        v.toNat * 2 ^ 8 + k.toNat ∧
    windowWord (encode c (.commandFrame a y k)) =
      c.cmdMarker.m0.toNat * 2 ^ 32 + c.cmdMarker.m1.toNat * 2 ^ 24 + a.toNat * 2 ^ 16 + y.toNat * 2 ^ 8 + k.toNat ∧
    (encode c (.sensorFrame i t v k)).length = 9 ∧ (encode c (.commandFrame a y k)).length = 5 ∧
    enc c (.sensor i t v) =
      encode c (.sensorFrame i t v (xorAll ((encode c (.sensorFrame i t v k)).take 8))) ∧
    enc c (.command a y) =
      encode c (.commandFrame a y (xorAll ((encode c (.commandFrame a y k)).take 4)))

/-- A table word that numbers a window as R60 or R61 does decodes to its frame row (an instruction by log 1), under the
reset instance's markers (logs 7, 8, 13). -/
def Obligations.TableWordsReadFrameNumbers : Prop :=
  ∀ i : Instr, i.channel = .wire →
    decodeTableWord (8 * (encode Config.initial i).length) (windowWord (encode Config.initial i)) = some i
end

