-- ==== Sys2Proof/Laws/State.lean ====
section
/-! SUPPORT. One lemma per field per state update, and the small lemmas of the responses of a scan. -/

namespace Sys2Proof.Machine

@[simp] theorem withBuf_cfg (s : State) (b : Bytes) : (s.withBuf b).cfg = s.cfg := rfl
@[simp] theorem withBuf_buf (s : State) (b : Bytes) : (s.withBuf b).buf = b := rfl
@[simp] theorem withBuf_requests (s : State) (b : Bytes) : (s.withBuf b).requests = s.requests := rfl
@[simp] theorem withBuf_consumer (s : State) (b : Bytes) : (s.withBuf b).consumer = s.consumer := rfl
@[simp] theorem withBuf_responses (s : State) (b : Bytes) : (s.withBuf b).responses = s.responses := rfl
@[simp] theorem withBuf_events (s : State) (b : Bytes) : (s.withBuf b).events = s.events := rfl

@[simp] theorem withConsumer_cfg (s : State) (c : Consumer) : (s.withConsumer c).cfg = s.cfg := rfl
@[simp] theorem withConsumer_buf (s : State) (c : Consumer) : (s.withConsumer c).buf = s.buf := rfl
@[simp] theorem withConsumer_requests (s : State) (c : Consumer) : (s.withConsumer c).requests = s.requests := rfl
@[simp] theorem withConsumer_consumer (s : State) (c : Consumer) : (s.withConsumer c).consumer = c := rfl
@[simp] theorem withConsumer_responses (s : State) (c : Consumer) : (s.withConsumer c).responses = s.responses := rfl
@[simp] theorem withConsumer_events (s : State) (c : Consumer) : (s.withConsumer c).events = s.events := rfl

@[simp] theorem emit_cfg (s : State) (evs : List Event) : (s.emit evs).cfg = s.cfg := rfl
@[simp] theorem emit_buf (s : State) (evs : List Event) : (s.emit evs).buf = s.buf := rfl
@[simp] theorem emit_requests (s : State) (evs : List Event) : (s.emit evs).requests = s.requests := rfl
@[simp] theorem emit_consumer (s : State) (evs : List Event) : (s.emit evs).consumer = s.consumer := rfl
@[simp] theorem emit_responses (s : State) (evs : List Event) : (s.emit evs).responses = s.responses := rfl
@[simp] theorem emit_events (s : State) (evs : List Event) : (s.emit evs).events = s.events ++ evs := rfl

@[simp] theorem answer_cfg (s : State) (r : Response) : (s.answer r).cfg = s.cfg := rfl
@[simp] theorem answer_buf (s : State) (r : Response) : (s.answer r).buf = s.buf := rfl
@[simp] theorem answer_requests (s : State) (r : Response) : (s.answer r).requests = s.requests.tail := rfl
@[simp] theorem answer_consumer (s : State) (r : Response) : (s.answer r).consumer = s.consumer := rfl
@[simp] theorem answer_responses (s : State) (r : Response) : (s.answer r).responses = s.responses ++ [r] := rfl
@[simp] theorem answer_events (s : State) (r : Response) : (s.answer r).events = s.events := rfl

@[simp] theorem applyScan_cfg (s : State) (r : ScanResult) : (s.applyScan r).cfg = s.cfg := rfl
@[simp] theorem applyScan_buf (s : State) (r : ScanResult) : (s.applyScan r).buf = r.buf := rfl
@[simp] theorem applyScan_requests (s : State) (r : ScanResult) : (s.applyScan r).requests = s.requests.tail := rfl
@[simp] theorem applyScan_consumer (s : State) (r : ScanResult) : (s.applyScan r).consumer = s.consumer := rfl
@[simp] theorem applyScan_responses (s : State) (r : ScanResult) :
    (s.applyScan r).responses = s.responses ++ [r.response] := rfl
@[simp] theorem applyScan_events (s : State) (r : ScanResult) : (s.applyScan r).events = s.events ++ r.events := rfl

@[simp] theorem scanResponse_status (r : ScanResult) : r.response.status = .ok := rfl
@[simp] theorem scanResponse_len (r : ScanResult) : r.response.len = r.buf.length := rfl
@[simp] theorem scanResponse_outcome (r : ScanResult) : r.response.outcome = some r.outcome := rfl
@[simp] theorem scanResponse_events (r : ScanResult) : r.response.events = some r.events := rfl
@[simp] theorem scanResponse_bytes (r : ScanResult) : r.response.bytes = none := rfl
@[simp] theorem scanResponse_result (r : ScanResult) : r.response.result = none := rfl
@[simp] theorem scanResponse_chk (r : ScanResult) : r.response.chk = none := rfl

@[simp] theorem fresh_cfg (c : Config) : (State.fresh c).cfg = c := rfl
@[simp] theorem fresh_buf (c : Config) : (State.fresh c).buf = [] := rfl
@[simp] theorem fresh_requests (c : Config) : (State.fresh c).requests = [] := rfl
@[simp] theorem fresh_consumer (c : Config) : (State.fresh c).consumer = ⟨[], true⟩ := rfl
@[simp] theorem fresh_responses (c : Config) : (State.fresh c).responses = [] := rfl
@[simp] theorem fresh_events (c : Config) : (State.fresh c).events = [] := rfl

end Sys2Proof.Machine
end

