-- ==== Sys2Proof/Laws/Ops.lean ====
section
/-! SUPPORT. One lemma per shared operation that says everything it can do: the consumer's offer, a scan taking effect,
the buffer's form, the header, the checksum. -/

namespace Sys2Proof.Machine

/-! ### The configuration -/

@[simp] theorem frameLength_sens (c : Config) : c.frameLength c.sensMarker = some 9 := by
  simp [Config.frameLength]

theorem frameLength_cmd {c : Config} (h : c.sensMarker ≠ c.cmdMarker) : c.frameLength c.cmdMarker = some 5 := by
  simp [Config.frameLength, Ne.symm h]

/-- The same, where the header was built from the marker's two bytes. -/
@[simp] theorem frameLength_sens_bytes (c : Config) :
    c.frameLength ⟨c.sensMarker.m0, c.sensMarker.m1⟩ = some 9 := frameLength_sens c

theorem frameLength_cmd_bytes {c : Config} (h : c.sensMarker ≠ c.cmdMarker) :
    c.frameLength ⟨c.cmdMarker.m0, c.cmdMarker.m1⟩ = some 5 := frameLength_cmd h

/-- What a recognized header can be. -/
theorem frameLength_eq_some {c : Config} {h : Marker} {L : Nat} (hl : c.frameLength h = some L) :
    (h = c.sensMarker ∧ L = 9) ∨ (h ≠ c.sensMarker ∧ h = c.cmdMarker ∧ L = 5) := by
  unfold Config.frameLength at hl
  split at hl
  · simp_all
  · split at hl <;> simp_all

theorem frameLength_pos {c : Config} {h : Marker} {L : Nat} (hl : c.frameLength h = some L) : 2 ≤ L ∧ L ≤ 9 := by
  rcases frameLength_eq_some hl with ⟨-, rfl⟩ | ⟨-, -, rfl⟩ <;> decide

theorem legal_markers {c : Config} (h : c.legal = true) : c.sensMarker ≠ c.cmdMarker := by
  simp only [Config.legal, Bool.and_eq_true, bne_iff_ne] at h
  exact h.1

theorem legal_cap {c : Config} {n : Nat} (h : c.legal = true) (hc : c.cap = .finite n) : 9 ≤ n := by
  simp only [Config.legal, hc, Bool.and_eq_true, decide_eq_true_eq] at h
  exact h.2

/-- The markers of the reset instance are distinct whatever its open command marker is. -/
theorem openCmdMarker_ne : Config.defaultSensMarker ≠ Config.openCmdMarker := by
  simp only [Config.openCmdMarker]
  split
  · rename_i h
    rw [← h]
    intro e
    have hm : Config.cmdMarkerChoice.2 = ~~~Config.cmdMarkerChoice.2 := congrArg Marker.m1 e
    have h1 : Config.cmdMarkerChoice.2 = 0xBB := congrArg Marker.m1 h
    rw [h1] at hm
    exact absurd hm (by decide)
  · rename_i h
    exact fun e => h e.symm

/-! ### The buffer and its form -/

/-- Dropping bytes from the head keeps the buffer's form. -/
theorem wf_drop {cap : Capacity} {buf : Bytes} (k : Nat) (h : Memory.wf cap buf = true) :
    Memory.wf cap (bufDrop buf k) = true := by
  cases cap with
  | inf => rfl
  | finite n =>
    simp only [Memory.wf, Capacity.admits, bufDrop, List.length_drop, decide_eq_true_eq] at *
    omega

/-- A byte appended to a buffer that is not full keeps the buffer's form. -/
theorem wf_append {cap : Capacity} {buf : Bytes} (b : Byte) (h : Memory.wf cap buf = true)
    (hf : cap.isFull buf.length = false) : Memory.wf cap (bufAppend buf b) = true := by
  cases cap with
  | inf => rfl
  | finite n =>
    simp only [Memory.wf, Capacity.admits, Capacity.isFull, bufAppend, List.length_append, List.length_singleton,
      decide_eq_true_eq, beq_eq_false_iff_ne] at *
    omega

/-- The empty buffer has the form, whatever the capacity. -/
theorem wf_nil (cap : Capacity) : Memory.wf cap [] = true := by
  cases cap <;> simp [Memory.wf, Capacity.admits]

/-- A buffer no longer than one of the form has the form. -/
theorem wf_of_length_le {cap : Capacity} {a b : Bytes} (h : Memory.wf cap b = true) (hl : a.length ≤ b.length) :
    Memory.wf cap a = true := by
  cases cap with
  | inf => rfl
  | finite n =>
    simp only [Memory.wf, Capacity.admits, decide_eq_true_eq] at *
    omega

/-- The offsets of the buffer's cells are 0, 1, 2, … in order, so they are strictly rising. -/
theorem cells_offsets (buf : Bytes) : (Memory.cells buf).map Prod.fst = List.range buf.length := by
  simp [Memory.cells, List.map_map, Function.comp_def, List.zipIdx_map_snd, List.range_eq_range']

/-- A byte read after bytes were dropped from the head. -/
theorem readByte_drop (buf : Bytes) (k i : Nat) : readByte (bufDrop buf k) i = readByte buf (k + i) := by
  simp [readByte, bufDrop]

/-- A byte of the old buffer reads the same after an append. -/
theorem readByte_append_lt (buf : Bytes) (b : Byte) {i : Nat} (h : i < buf.length) :
    readByte (bufAppend buf b) i = readByte buf i := by
  simp [readByte, bufAppend, List.getElem?_append_left h]

/-- The appended byte reads at the old length. -/
theorem readByte_append_length (buf : Bytes) (b : Byte) : readByte (bufAppend buf b) buf.length = some b := by
  simp [readByte, bufAppend]

theorem headerOf_eq_some {w : Bytes} {h : Marker} (hh : headerOf w = some h) :
    ∃ rest, w = h.m0 :: h.m1 :: rest := by
  match w, hh with
  | m0 :: m1 :: rest, hh =>
    simp only [headerOf, Option.some.injEq] at hh
    exact ⟨rest, by rw [← hh]⟩

theorem headerOf_eq_none {w : Bytes} (hh : headerOf w = none) : w.length < 2 := by
  match w, hh with
  | [], _ => simp
  | [_], _ => simp

/-- The header is there as soon as there are two bytes, and later bytes do not change it. -/
theorem headerOf_append {w : Bytes} {h : Marker} (hh : headerOf w = some h) (x : Bytes) :
    headerOf (w ++ x) = some h := by
  obtain ⟨rest, rfl⟩ := headerOf_eq_some hh
  rfl

/-! ### The checksum -/

theorem xorAll_append (s t : Bytes) : xorAll (s ++ t) = xorAll s ^^^ xorAll t := by
  induction s with
  | nil => simp [xorAll]
  | cons b s ih => simp [xorAll, ih, BitVec.xor_assoc]

@[simp] theorem xorAll_singleton (b : Byte) : xorAll [b] = b := by simp [xorAll]

/-- A byte equals a checksum exactly when appending it makes the XOR of all bytes zero. -/
theorem eq_chk_iff (s : Bytes) (k : Byte) : k = chk s ↔ xorAll (s ++ [k]) = 0 := by
  rw [xorAll_append, xorAll_singleton]
  exact eq_comm.trans (BitVec.xor_eq_zero_iff (x := xorAll s) (y := k)).symm

/-! ### Offers and scans -/

/-- A scan with no event takes effect whatever the consumer is. -/
theorem performScan_silent {r : ScanResult} (s : State) (h : r.events = []) :
    performScan r s = .next (s.applyScan r) := by
  simp [performScan, h]

/-- A scan whose events are accepted takes effect. -/
theorem performScan_accepted {r : ScanResult} {s : State} {c : Consumer} (h : r.events ≠ [])
    (ho : s.consumer.offer = (true, c)) : performScan r s = .next ((s.withConsumer c).applyScan r) := by
  unfold performScan
  split
  · contradiction
  · rw [ho]

/-- A scan whose events are not accepted does not occur. -/
theorem performScan_held {r : ScanResult} {s : State} {c : Consumer} (h : r.events ≠ [])
    (ho : s.consumer.offer = (false, c)) : performScan r s = .next (s.withConsumer c) := by
  unfold performScan
  split
  · contradiction
  · rw [ho]

/-- Everything a scan can do. -/
theorem performScan_cases (r : ScanResult) (s : State) :
    (r.events = [] ∧ performScan r s = .next (s.applyScan r)) ∨
    (r.events ≠ [] ∧ ∃ c, s.consumer.offer = (true, c) ∧
      performScan r s = .next ((s.withConsumer c).applyScan r)) ∨
    (r.events ≠ [] ∧ ∃ c, s.consumer.offer = (false, c) ∧ performScan r s = .next (s.withConsumer c)) := by
  by_cases h : r.events = []
  · exact .inl ⟨h, performScan_silent s h⟩
  · rcases ho : s.consumer.offer with ⟨a, c⟩
    cases a with
    | true => exact .inr (.inl ⟨h, c, rfl, performScan_accepted h ho⟩)
    | false => exact .inr (.inr ⟨h, c, rfl, performScan_held h ho⟩)

end Sys2Proof.Machine
end

