-- ==== Sys2Proof/Laws/Decode.lean ====
section
/-! SUPPORT. The byte order of a 32-bit value, everything the two decoders can answer, and frames as numbers. -/

namespace Sys2Proof

/-- Taking a 32-bit value apart and putting it together again (20_memory.md R45). -/
theorem u32be_bigEndian (v : Word32) :
    u32be (v.extractLsb' 24 8) (v.extractLsb' 16 8) (v.extractLsb' 8 8) (v.extractLsb' 0 8) = v := by
  apply BitVec.eq_of_getLsbD_eq
  intro k hk
  simp only [u32be, BitVec.getLsbD_or, BitVec.getLsbD_shiftLeft, BitVec.getLsbD_setWidth, BitVec.getLsbD_extractLsb']
  interval_cases k <;> simp

theorem bigEndian_u32be (a b c d : Byte) : bigEndian (u32be a b c d) = [a, b, c, d] := by
  have key : ∀ (x : Byte) (k : Nat), (∀ j, j < 8 → (u32be a b c d).getLsbD (k + j) = x.getLsbD j) →
      (u32be a b c d).extractLsb' k 8 = x := by
    intro x k h
    apply BitVec.eq_of_getLsbD_eq
    intro j hj
    simp [hj, h j hj]
  have bits : ∀ k, (u32be a b c d).getLsbD k =
      (decide (k < 32) && (if k < 8 then d.getLsbD k else if k < 16 then c.getLsbD (k - 8)
        else if k < 24 then b.getLsbD (k - 16) else a.getLsbD (k - 24))) := by
    intro k
    by_cases hk : k < 32
    · simp only [u32be, BitVec.getLsbD_or, BitVec.getLsbD_shiftLeft, BitVec.getLsbD_setWidth]
      interval_cases k <;> simp
    · simp [BitVec.getLsbD_of_ge _ _ (Nat.le_of_not_lt hk), hk]
  simp only [bigEndian]
  rw [key a 24, key b 16, key c 8, key d 0]
  all_goals
    intro j hj
    rw [bits]
    interval_cases j <;> simp

/-- Everything the window decoder can answer. -/
theorem decodeWire_cases (c : Config) (w : Bytes) :
    (w.length < 2 ∧ decodeWire c w = .error .noHeader) ∨
    ∃ m0 m1 rest, w = m0 :: m1 :: rest ∧
      ((c.frameLength ⟨m0, m1⟩ = none ∧ decodeWire c w = .error .unknownHeader) ∨
       (∃ L, c.frameLength ⟨m0, m1⟩ = some L ∧ w.length < L ∧ decodeWire c w = .error .incomplete) ∨
       ((⟨m0, m1⟩ : Marker) = c.sensMarker ∧ ∃ i t v3 v2 v1 v0 k tail,
          rest = i :: t :: v3 :: v2 :: v1 :: v0 :: k :: tail ∧
          decodeWire c w = .ok (.sensorFrame i t (u32be v3 v2 v1 v0) k)) ∨
       ((⟨m0, m1⟩ : Marker) ≠ c.sensMarker ∧ (⟨m0, m1⟩ : Marker) = c.cmdMarker ∧ ∃ a t k tail,
          rest = a :: t :: k :: tail ∧ decodeWire c w = .ok (.commandFrame a t k))) := by
  match w with
  | [] => exact .inl ⟨by simp, rfl⟩
  | [_] => exact .inl ⟨by simp, rfl⟩
  | m0 :: m1 :: rest =>
    refine .inr ⟨m0, m1, rest, rfl, ?_⟩
    by_cases hs : (⟨m0, m1⟩ : Marker) = c.sensMarker
    · have hl : c.frameLength ⟨m0, m1⟩ = some 9 := by rw [hs]; exact Machine.frameLength_sens c
      match rest with
      | i :: t :: v3 :: v2 :: v1 :: v0 :: k :: tail =>
        exact .inr (.inr (.inl ⟨hs, i, t, v3, v2, v1, v0, k, tail, rfl, by simp [decodeWire, hs]⟩))
      | [] | [_] | [_, _] | [_, _, _] | [_, _, _, _] | [_, _, _, _, _] | [_, _, _, _, _, _] =>
        exact .inr (.inl ⟨9, hl, by simp, by simp [decodeWire, hs]⟩)
    · by_cases hc : (⟨m0, m1⟩ : Marker) = c.cmdMarker
      · have hl : c.frameLength ⟨m0, m1⟩ = some 5 := by
          rw [hc] at hs ⊢
          exact Machine.frameLength_cmd (Ne.symm hs)
        match rest with
        | a :: t :: k :: tail =>
          exact .inr (.inr (.inr ⟨hs, hc, a, t, k, tail, rfl, by simp only [decodeWire, if_neg hs, if_pos hc]⟩))
        | [] | [_] | [_, _] =>
          exact .inr (.inl ⟨5, hl, by simp, by simp only [decodeWire, if_neg hs, if_pos hc]⟩)
      · exact .inl ⟨by simp [Config.frameLength, hs, hc], by simp only [decodeWire, if_neg hs, if_neg hc]⟩

/-- A byte is known by its number. -/
theorem byte_of_toNat {op : Byte} {k : Nat} (h : op.toNat = k) : op = BitVec.ofNat 8 k := by
  rw [← h]
  simp

/-- Everything the record decoder can answer (30_encoding.md R70, R71). -/
theorem decodeRequest_cases (r : Bytes) :
    (∃ b, r = [0x01, b] ∧ decodeRequest r = .append b) ∨
    (r = [0x02] ∧ decodeRequest r = .step) ∨
    (r = [0x03] ∧ decodeRequest r = .poll) ∨
    (r = [0x04] ∧ decodeRequest r = .reset) ∨
    (∃ i t v3 v2 v1 v0, r = [0x05, i, t, v3, v2, v1, v0] ∧
      decodeRequest r = .encodeSensor i t (u32be v3 v2 v1 v0)) ∨
    (∃ a k, r = [0x06, a, k] ∧ decodeRequest r = .encodeCommand a k) ∨
    (∃ n w, r = 0x07 :: n :: w ∧ w.length = n.toNat ∧ decodeRequest r = .decode w) ∨
    (∃ n data, r = 0x08 :: n :: data ∧ data.length = n.toNat ∧ decodeRequest r = .checksum data) ∨
    ((requestDefect r).isSome = true ∧ decodeRequest r = .reservedRequest r) := by
  match r with
  | [] => simp [decodeRequest, requestDefect]
  | opcode :: args =>
    by_cases h1 : opcode.toNat = 0x01
    · cases byte_of_toNat h1
      match args with
      | [] | [_] | _ :: _ :: _ => simp [decodeRequest, requestDefect, recordLength]
    by_cases h2 : opcode.toNat = 0x02
    · cases byte_of_toNat h2
      match args with
      | [] | _ :: _ => simp [decodeRequest, requestDefect, recordLength]
    by_cases h3 : opcode.toNat = 0x03
    · cases byte_of_toNat h3
      match args with
      | [] | _ :: _ => simp [decodeRequest, requestDefect, recordLength]
    by_cases h4 : opcode.toNat = 0x04
    · cases byte_of_toNat h4
      match args with
      | [] | _ :: _ => simp [decodeRequest, requestDefect, recordLength]
    by_cases h5 : opcode.toNat = 0x05
    · cases byte_of_toNat h5
      match args with
      | [] | [_] | [_, _] | [_, _, _] | [_, _, _, _] | [_, _, _, _, _] | [_, _, _, _, _, _]
      | _ :: _ :: _ :: _ :: _ :: _ :: _ :: _ => simp [decodeRequest, requestDefect, recordLength]
    by_cases h6 : opcode.toNat = 0x06
    · cases byte_of_toNat h6
      match args with
      | [] | [_] | [_, _] | _ :: _ :: _ :: _ => simp [decodeRequest, requestDefect, recordLength]
    by_cases h7 : opcode.toNat = 0x07
    · cases byte_of_toNat h7
      match args with
      | [] => simp [decodeRequest, requestDefect, recordLength]
      | n :: w =>
        by_cases hn : w.length = n.toNat
        · simp [decodeRequest, hn]
        · have hd : ¬ w.length + 1 + 1 = 2 + n.toNat := by omega
          simp [decodeRequest, requestDefect, recordLength, hn, hd]
    by_cases h8 : opcode.toNat = 0x08
    · cases byte_of_toNat h8
      match args with
      | [] => simp [decodeRequest, requestDefect, recordLength]
      | n :: data =>
        by_cases hn : data.length = n.toNat
        · simp [decodeRequest, hn]
        · have hd : ¬ data.length + 1 + 1 = 2 + n.toNat := by omega
          simp [decodeRequest, requestDefect, recordLength, hn, hd]
    iterate 8 refine .inr ?_
    have hl : recordLength opcode (args.headD 0) = none := by
      unfold recordLength
      split <;> first | rfl | contradiction
    refine ⟨by simp only [requestDefect, hl, Option.isSome_some], ?_⟩
    unfold decodeRequest
    split
    · rfl
    · split <;> first | rfl | simp_all
/-! ### Frames as numbers -/

theorem windowWord_lt (w : Bytes) : windowWord w < 2 ^ (8 * w.length) := by
  induction w with
  | nil => decide
  | cons b bs ih =>
    have hb := b.isLt
    have e : 2 ^ (8 * (b :: bs).length) = 2 ^ 8 * 2 ^ (8 * bs.length) := by
      rw [← pow_add, List.length_cons, Nat.mul_succ, Nat.add_comm]
    rw [windowWord, e]
    nlinarith

/-- The bytes that a number stands for are those of its lowest bytes. -/
theorem wordWindow_add (n b v : Nat) (m : Nat) (h : n ≤ m) : wordWindow n (b * 2 ^ (8 * m) + v) = wordWindow n v := by
  induction n with
  | zero => rfl
  | succ n ih =>
    rw [wordWindow, wordWindow, ih (by omega), tableByte, tableByte]
    congr 1
    apply BitVec.eq_of_toNat_eq
    simp only [BitVec.toNat_ofNat, Nat.shiftRight_eq_div_pow]
    have e : b * 2 ^ (8 * m) + v = v + (b * 2 ^ (8 * (m - (n + 1))) * 2 ^ 8) * 2 ^ (8 * n) := by
      rw [Nat.mul_assoc, Nat.mul_assoc, ← pow_add, ← pow_add, Nat.add_comm]
      congr 3
      omega
    rw [e, Nat.add_mul_div_right _ _ (by positivity), Nat.add_mul_mod_self_right]

/-- A window is the bytes of its number. -/
theorem wordWindow_windowWord (w : Bytes) : wordWindow w.length (windowWord w) = w := by
  induction w with
  | nil => rfl
  | cons b bs ih =>
    rw [List.length_cons, wordWindow, windowWord, wordWindow_add _ _ _ _ le_rfl, ih, tableByte]
    congr 1
    apply BitVec.eq_of_toNat_eq
    rw [BitVec.toNat_ofNat, Nat.shiftRight_eq_div_pow, Nat.add_comm, Nat.add_mul_div_right _ _ (by positivity),
      Nat.div_eq_of_lt (windowWord_lt bs), Nat.zero_add, Nat.mod_eq_of_lt b.isLt]

/-- The bytes of a window's number are the window, its length under whatever name. -/
theorem wordWindow_of_length {w : Bytes} {n : Nat} (h : w.length = n) : wordWindow n (windowWord w) = w :=
  h ▸ wordWindow_windowWord w

/-- A 72-bit word with the default sensor marker in bits 71:56 is the window it numbers. -/
theorem tableRow_sensor {w : Nat} (h : BitVec.ofNat 16 (w >>> 56) = Config.defaultSensMarker.word16) :
    tableRow 72 w = .wire (wordWindow 9 w) := by
  simp [tableRow, h]

/-- A 40-bit word is the command window whose operands are its low three bytes. -/
theorem tableRow_command (w : Nat) :
    tableRow 40 w = .wire (Config.openCmdMarker.m0 :: Config.openCmdMarker.m1 :: wordWindow 3 w) := by
  simp [tableRow]

/-- A table word whose window decodes is the instruction of that window. -/
theorem decodeTableWord_wire {nbits w : Nat} {window : Bytes} {i : Instr} (hr : tableRow nbits w = .wire window)
    (hd : decodeWire Config.initial window = .ok i) : decodeTableWord nbits w = some i := by
  simp only [decodeTableWord, hr, hd]

end Sys2Proof
end

