-- ==== Sys2Proof/Laws/Reassembler.lean ====
section
/-! SUPPORT. The spec lemmas of the boundary scanner: everything a STEP body can do, and POLL's loop one body at a
time. -/

namespace Sys2Proof.Machine

/-- Everything a STEP body can do (41_reassembler.md R106). -/
theorem scanStep_cases (c : Config) (buf : Bytes) :
    (buf.length < 2 ∧ scanStep c buf = ⟨.stopNeedData, buf, []⟩) ∨
    ∃ h, headerOf buf = some h ∧
      ((c.frameLength h = none ∧ scanStep c buf = ⟨.resync, buf.drop 1, [.error .unknownHeader]⟩) ∨
       ∃ L, c.frameLength h = some L ∧
        ((buf.length < L ∧ scanStep c buf = ⟨.stopWait, buf, []⟩) ∨
         (L ≤ buf.length ∧
          ((∃ f n, decodeFrame c (buf.take L) = .ok f n ∧ scanStep c buf = ⟨.yield, buf.drop L, [.frame f]⟩) ∨
           (∃ e, decodeFrame c (buf.take L) = .err e ∧
             scanStep c buf = ⟨.resync, buf.drop 1, [.error .checksumMismatch]⟩))))) := by
  unfold scanStep
  cases hh : headerOf buf with
  | none => exact .inl ⟨headerOf_eq_none hh, rfl⟩
  | some h =>
    refine .inr ⟨h, rfl, ?_⟩
    simp only
    cases hl : c.frameLength h with
    | none => exact .inl ⟨rfl, rfl⟩
    | some L =>
      refine .inr ⟨L, rfl, ?_⟩
      simp only
      by_cases hlt : buf.length < L
      · exact .inl ⟨hlt, by simp [hlt]⟩
      · refine .inr ⟨by omega, ?_⟩
        simp only [hlt, if_false, memRead, List.drop_zero, bufDrop]
        cases hd : decodeFrame c (buf.take L) with
        | ok f n => exact .inl ⟨f, n, rfl, rfl⟩
        | err e => exact .inr ⟨e, rfl, rfl⟩

/-- A STEP body that stops leaves the buffer and emits nothing. -/
theorem scanStep_of_stops {c : Config} {buf : Bytes} (h : (scanStep c buf).outcome.stops = true) :
    (scanStep c buf).buf = buf ∧ (scanStep c buf).events = [] := by
  rcases scanStep_cases c buf with ⟨-, e⟩ | ⟨_, -, ⟨-, e⟩ | ⟨_, -, ⟨-, e⟩ | ⟨-, ⟨_, _, -, e⟩ | ⟨_, -, e⟩⟩⟩⟩ <;>
    simp_all [StepOutcome.stops]

/-- A STEP body that does not stop shortens the buffer and emits exactly one event. -/
theorem scanStep_of_not_stops {c : Config} {buf : Bytes} (h : (scanStep c buf).outcome.stops = false) :
    (scanStep c buf).buf.length < buf.length ∧ ∃ ev, (scanStep c buf).events = [ev] := by
  rcases scanStep_cases c buf with
    ⟨-, e⟩ | ⟨hd, hh, ⟨-, e⟩ | ⟨L, hl, ⟨-, e⟩ | ⟨hle, ⟨f, n, -, e⟩ | ⟨er, -, e⟩⟩⟩⟩
  · simp [e, StepOutcome.stops] at h
  · obtain ⟨rest, rfl⟩ := headerOf_eq_some hh
    simp [e]
  · simp [e, StepOutcome.stops] at h
  · have := frameLength_pos hl
    simp only [e, List.length_drop, List.cons.injEq, and_true, exists_eq']
    omega
  · obtain ⟨rest, rfl⟩ := headerOf_eq_some hh
    simp [e]

/-- A STEP body emits nothing exactly when it stops. -/
theorem scanStep_events_eq_nil {c : Config} {buf : Bytes} :
    (scanStep c buf).events = [] ↔ (scanStep c buf).outcome.stops = true := by
  cases hs : (scanStep c buf).outcome.stops with
  | true => simp [(scanStep_of_stops hs).2]
  | false =>
    obtain ⟨ev, he⟩ := (scanStep_of_not_stops hs).2
    simp [he]

theorem scanStep_buf_suffix (c : Config) (buf : Bytes) : (scanStep c buf).buf <:+ buf := by
  rcases scanStep_cases c buf with ⟨-, e⟩ | ⟨_, -, ⟨-, e⟩ | ⟨_, -, ⟨-, e⟩ | ⟨-, ⟨_, _, -, e⟩ | ⟨_, -, e⟩⟩⟩⟩ <;>
    rw [e] <;> first | exact List.suffix_refl _ | exact List.drop_suffix _ _

/-- The loop after a STEP body that stops. -/
theorem scanLoop_succ_stop {c : Config} {fuel : Nat} {buf : Bytes}
    (h : (scanStep c buf).outcome.stops = true) : scanLoop c (fuel + 1) buf = scanStep c buf := by
  simp [scanLoop, h]

/-- The loop after a STEP body that goes on. -/
theorem scanLoop_succ_go {c : Config} {fuel : Nat} {buf : Bytes}
    (h : (scanStep c buf).outcome.stops = false) :
    scanLoop c (fuel + 1) buf =
      { scanLoop c fuel (scanStep c buf).buf with
        events := (scanStep c buf).events ++ (scanLoop c fuel (scanStep c buf).buf).events } := by
  simp [scanLoop, h]

/-- Fuel above the buffer's length makes no difference. -/
theorem scanLoop_fuel (c : Config) : ∀ (n m : Nat) (buf : Bytes), buf.length < n → buf.length < m →
    scanLoop c n buf = scanLoop c m buf := by
  intro n
  induction n with
  | zero => intro m buf h; omega
  | succ n ih =>
    intro m buf hn hm
    obtain ⟨m, rfl⟩ : ∃ k, m = k + 1 := ⟨m - 1, by omega⟩
    cases hs : (scanStep c buf).outcome.stops with
    | true => rw [scanLoop_succ_stop hs, scanLoop_succ_stop hs]
    | false =>
      have hlt := (scanStep_of_not_stops hs).1
      rw [scanLoop_succ_go hs, scanLoop_succ_go hs, ih m _ (by omega) (by omega)]

end Sys2Proof.Machine
end

