-- ==== Sys2Proof/Laws/Codec.lean ====
section
/-! SUPPORT. What `decode` does with each window (40_codec.md R90), and what a scan does with a window of the opcode
table's frame rows. -/

namespace Sys2Proof

/-- The bytes of a 32-bit value put together, as one concatenation. -/
theorem u32be_eq_append (v3 v2 v1 v0 : Byte) : u32be v3 v2 v1 v0 = v3 ++ v2 ++ v1 ++ v0 := by
  apply BitVec.eq_of_getLsbD_eq
  intro k hk
  simp only [u32be, BitVec.getLsbD_or, BitVec.getLsbD_shiftLeft, BitVec.getLsbD_setWidth, BitVec.getLsbD_append]
  interval_cases k <;> simp

end Sys2Proof

namespace Sys2Proof.Machine

/-- `decode` of at least nine bytes with the sensor marker at their head. -/
theorem decodeFrame_sensor {c : Config} {m0 m1 : Byte} (i t v3 v2 v1 v0 k : Byte) (tail : Bytes)
    (h : (⟨m0, m1⟩ : Marker) = c.sensMarker) :
    decodeFrame c (m0 :: m1 :: i :: t :: v3 :: v2 :: v1 :: v0 :: k :: tail) =
      if k = chk [m0, m1, i, t, v3, v2, v1, v0] then .ok (.sensor i t (u32be v3 v2 v1 v0)) 9
      else .err .checksumMismatch := by
  simp [decodeFrame, headerOf, h, verify, sensorFields, windowByte]

/-- `decode` of at least five bytes with the command marker at their head. -/
theorem decodeFrame_command {c : Config} {m0 m1 : Byte} (a t k : Byte) (tail : Bytes)
    (hne : c.sensMarker ≠ c.cmdMarker) (h : (⟨m0, m1⟩ : Marker) = c.cmdMarker) :
    decodeFrame c (m0 :: m1 :: a :: t :: k :: tail) =
      if k = chk [m0, m1, a, t] then .ok (.command a t) 5 else .err .checksumMismatch := by
  simp [decodeFrame, headerOf, h, frameLength_cmd hne, verify, commandFields, windowByte, Ne.symm hne]

theorem length_enc (c : Config) (f : Frame) : (enc c f).length = f.length := by cases f <;> rfl

/-- The buffer a scan of a frame row leaves is what remains after bytes are dropped from the head. -/
theorem windowScan_cases (c : Config) (buf : Bytes) (f : Frame) (k : Byte) :
    (k = chk (frameBody c f) ∧ windowScan c buf f k = ⟨.yield, buf.drop f.length, [.frame f]⟩) ∨
    (k ≠ chk (frameBody c f) ∧ windowScan c buf f k = ⟨.resync, buf.drop 1, [.error .checksumMismatch]⟩) := by
  by_cases h : k = chk (frameBody c f)
  · exact .inl ⟨h, by simp [windowScan, h, bufDrop]⟩
  · exact .inr ⟨h, by simp [windowScan, h, bufDrop]⟩

/-- A STEP body that does not stop decides on bytes already present: more bytes at the tail change nothing but the
tail (41_reassembler.md R119, the reason). -/
theorem scanStep_append {c : Config} {b x : Bytes} (h : (scanStep c b).outcome.stops = false) :
    scanStep c (b ++ x) = { scanStep c b with buf := (scanStep c b).buf ++ x } := by
  rcases scanStep_cases c b with
    ⟨-, e⟩ | ⟨hd, hh, ⟨hl, e⟩ | ⟨L, hl, ⟨-, e⟩ | ⟨hle, ⟨f, n, hdec, e⟩ | ⟨er, hdec, e⟩⟩⟩⟩ <;> rw [e] at h ⊢
  · simp [StepOutcome.stops] at h
  · obtain ⟨r, rfl⟩ := headerOf_eq_some hh
    simp only [scanStep, headerOf_append hh, hl, bufDrop]
    simp
  · simp [StepOutcome.stops] at h
  · simp only [scanStep, headerOf_append hh, hl, memRead, List.drop_zero, List.take_append_of_le_length hle, hdec]
    rw [if_neg (by simp only [List.length_append]; omega)]
    simp [bufDrop, List.drop_append_of_le_length hle]
  · have hnot : ¬ (b ++ x).length < L := by simp only [List.length_append]; omega
    obtain ⟨r, rfl⟩ := headerOf_eq_some hh
    simp only [scanStep, headerOf_append hh, hl, memRead, List.drop_zero, List.take_append_of_le_length hle, hdec]
    rw [if_neg hnot]
    simp [bufDrop]

end Sys2Proof.Machine
end

