-- ==== Sys2Proof/Laws/Exec.lean ====
section
/-! SUPPORT. Everything an instruction can do: the one inversion of `exec` that whole-machine claims cite. -/

namespace Sys2Proof.Machine

/-- An instruction that answers a next state only answered, or took a byte, or cleared the buffer, or scanned. -/
theorem exec_cases {i : Instr} {s t : State} (h : exec i s = .next t) :
    (∃ r, t = s.answer r ∧ r.len = s.buf.length ∧ r.events = none ∧ r.outcome = none ∧ i.channel = .request ∧
      i ≠ .step ∧ i ≠ .poll) ∨
    (∃ b, i = .append b ∧ s.cfg.cap.isFull s.buf.length = false ∧
      t = (s.withBuf (s.buf ++ [b])).answer { status := .ok, len := s.buf.length + 1 }) ∨
    (i = .reset ∧ t = (s.withBuf []).answer { status := .ok, len := 0 }) ∨
    (∃ r : ScanResult, ((i = .step ∧ r = scanStep s.cfg s.buf) ∨ (i = .poll ∧ r = scanPoll s.cfg s.buf) ∨
      (i.channel = .wire ∧ ∃ f k, r = windowScan s.cfg s.buf f k)) ∧ performScan r s = .next t) := by
  cases i <;> simp only [exec, execAppend, execStep, execPoll, execReset, execEncodeSensor, execEncodeCommand,
    execDecode, execChecksum, execReservedRequest, execSensorFrame, execCommandFrame] at h
  case append b =>
    split at h
    · cases h
      exact .inl ⟨_, rfl, rfl, rfl, rfl, rfl, by simp, by simp⟩
    · rename_i hf
      cases h
      exact .inr (.inl ⟨b, rfl, by simpa using hf, by simp [bufAppend]⟩)
  case step => exact .inr (.inr (.inr ⟨_, .inl ⟨rfl, rfl⟩, h⟩))
  case poll => exact .inr (.inr (.inr ⟨_, .inr (.inl ⟨rfl, rfl⟩), h⟩))
  case reset =>
    cases h
    exact .inr (.inr (.inl ⟨rfl, rfl⟩))
  case sensorFrame => exact .inr (.inr (.inr ⟨_, .inr (.inr ⟨rfl, _, _, rfl⟩), h⟩))
  case commandFrame => exact .inr (.inr (.inr ⟨_, .inr (.inr ⟨rfl, _, _, rfl⟩), h⟩))
  all_goals
    cases h
    exact .inl ⟨_, rfl, rfl, rfl, rfl, rfl, by simp, by simp⟩

/-- The reset instance's buffer has the form every buffer keeps. -/
theorem reset_wf : Memory.wf State.reset.cfg.cap State.reset.buf = true := rfl

end Sys2Proof.Machine
end

