-- ==== Sys2Proof/Laws/PerInstr.lean ====
section
/-! SUPPORT. What holds of every instruction as text, one lemma per constructor. -/

namespace Sys2Proof.Laws

/-- The length of an encoded instruction: R70's total length for a request, R60's and R61's for a frame row. -/
def encodedLength : Instr → Nat
  | .append _ => 2
  | .step => 1
  | .poll => 1
  | .reset => 1
  | .encodeSensor _ _ _ => 7
  | .encodeCommand _ _ => 3
  | .decode w => 2 + w.length
  | .checksum data => 2 + data.length
  | .reservedRequest record => record.length
  | .sensorFrame _ _ _ _ => 9
  | .commandFrame _ _ _ => 5

/-- An encoded instruction has the length the spec gives it, under every configuration. -/
def EncodedLength.Statement (i : Instr) : Prop := ∀ c : Config, (encode c i).length = encodedLength i

theorem EncodedLength.append (b : Byte) : EncodedLength.Statement (.append b) := fun _ => rfl
theorem EncodedLength.step : EncodedLength.Statement .step := fun _ => rfl
theorem EncodedLength.poll : EncodedLength.Statement .poll := fun _ => rfl
theorem EncodedLength.reset : EncodedLength.Statement .reset := fun _ => rfl
theorem EncodedLength.encodeSensor (i t : Byte) (v : Word32) : EncodedLength.Statement (.encodeSensor i t v) :=
  fun _ => rfl
theorem EncodedLength.encodeCommand (a k : Byte) : EncodedLength.Statement (.encodeCommand a k) := fun _ => rfl
theorem EncodedLength.decode (w : Bytes) : EncodedLength.Statement (.decode w) := fun _ => by
  simp only [encode, encodedLength, List.length_append, List.length_cons, List.length_nil]
theorem EncodedLength.checksum (data : Bytes) : EncodedLength.Statement (.checksum data) := fun _ => by
  simp only [encode, encodedLength, List.length_append, List.length_cons, List.length_nil]
theorem EncodedLength.reservedRequest (record : Bytes) : EncodedLength.Statement (.reservedRequest record) :=
  fun _ => rfl
theorem EncodedLength.sensorFrame (i t : Byte) (v : Word32) (k : Byte) :
    EncodedLength.Statement (.sensorFrame i t v k) := fun _ => rfl
theorem EncodedLength.commandFrame (a t k : Byte) : EncodedLength.Statement (.commandFrame a t k) := fun _ => rfl

end Sys2Proof.Laws
end

