-- ==== Sys2Proof/Tests/Slice0.lean ====
section
/-! SUPPORT. Tests of one decode, one encode or one step each, their expected results taken from spec/95_test_vectors.md
(the vector is named beside each) or worked out by hand from the rule named; then, for each statement with hypotheses,
a witness that meets them, each clause at a boundary of its range. -/

namespace Sys2Proof.Tests

open Sys2Proof.Machine

/-! ### Small states -/

/-- The instantiation of spec/95_test_vectors.md: default sensor marker, test command marker. -/
def cfg (cap : Capacity) : Config := ⟨⟨0xAA, 0xBB⟩, ⟨0x5A, 0xA5⟩, cap⟩

/-- An instance whose buffer holds `b`. -/
def holding (b : Bytes) : State := { State.fresh (cfg .inf) with buf := b }

/-- The same with nine bytes of capacity. -/
def holding9 (b : Bytes) : State := { State.fresh (cfg (.finite 9)) with buf := b }

/-- A state with one pending request. -/
def asked (s : State) (record : Bytes) : State := { s with requests := [record] }

/-- A state whose consumer refuses the next offer. -/
def refusing (s : State) : State := { s with consumer := ⟨[false], true⟩ }

/-- The state an outcome goes on to. -/
def goesTo : Host.Outcome State Fault Refusal → Option State
  | .next t => some t
  | .fault _ => none
  | .refused _ => none

/-- The frame of EX-1. -/
def ex1 : Bytes := [0xAA, 0xBB, 0x05, 0x01, 0x41, 0xBC, 0x00, 0x00, 0xE8]

/-- The valid command frame of DEC-8. -/
def cmd1 : Bytes := [0x5A, 0xA5, 0x03, 0x07, 0xFB]

/-- The buffer, and the outcome and events of the responses, after one instruction. -/
def scanned (i : Instr) (s : State) : Option (Bytes × List (Option StepOutcome × Option (List Event))) :=
  (goesTo (exec i s)).map fun t => (t.buf, t.responses.map fun r => (r.outcome, r.events))

/-! ### Well-formedness: an ill-formed term for each check -/

theorem wellFormed_decode_replicate (n : Nat) (b : Byte) :
    (Instr.decode (List.replicate n b)).wellFormed = decide (n ≤ 255) := by simp [Instr.wellFormed]
theorem wellFormed_checksum_replicate (n : Nat) (b : Byte) :
    (Instr.checksum (List.replicate n b)).wellFormed = decide (n ≤ 255) := by simp [Instr.wellFormed]

theorem test_wellFormed_refuses_long_decode :
    (Instr.decode (List.replicate 256 0x00)).wellFormed = false := wellFormed_decode_replicate 256 _
theorem test_wellFormed_refuses_long_checksum :
    (Instr.checksum (List.replicate 256 0x00)).wellFormed = false := wellFormed_checksum_replicate 256 _
theorem test_wellFormed_refuses_legal_record :
    (Instr.reservedRequest [0x02]).wellFormed = false := by decide
theorem test_wellFormed_accepts_255_bytes :
    (Instr.decode (List.replicate 255 0x00)).wellFormed = true := wellFormed_decode_replicate 255 _
theorem test_requestDefect_names :
    (requestDefect [], requestDefect [0x09], requestDefect [0x02, 0x00], requestDefect [0x02]) =
      (some .noOpcode, some .reservedOpcode, some .wrongLength, none) := by decide

/-! ### Decoding: words written out from R70, R60 and R61 -/

theorem test_decode_append : decodeRequest [0b00000001, 0b10101010] = .append 0xAA := by decide
theorem test_decode_step : decodeRequest [0b00000010] = .step := by decide
theorem test_decode_poll : decodeRequest [0b00000011] = .poll := by decide
theorem test_decode_reset : decodeRequest [0b00000100] = .reset := by decide
theorem test_decode_encodeSensor :
    decodeRequest [0b00000101, 0x12, 0x34, 0xDE, 0xAD, 0xBE, 0xEF] = .encodeSensor 0x12 0x34 0xDEADBEEF := by decide
theorem test_decode_encodeCommand : decodeRequest [0b00000110, 0x10, 0x01] = .encodeCommand 0x10 0x01 := by decide
theorem test_decode_decode : decodeRequest [0b00000111, 0x02, 0xAA, 0xBB] = .decode [0xAA, 0xBB] := by decide
theorem test_decode_checksum : decodeRequest [0b00001000, 0x01, 0x5A] = .checksum [0x5A] := by decide
/-- RQ-9 and RQ-10. -/
theorem test_decode_reserved :
    [[0x00], [0x09], [0xFF], [0x07, 0x03, 0xAA, 0xBB], [0x02, 0x00], [0x07]].map decodeRequest =
      ([[0x00], [0x09], [0xFF], [0x07, 0x03, 0xAA, 0xBB], [0x02, 0x00], [0x07]] : List Bytes).map
        Instr.reservedRequest := by decide
theorem test_decode_sensorFrame :
    (decodeWire (cfg .inf) ex1).toOption = some (.sensorFrame 0x05 0x01 0x41BC0000 0xE8) := by decide
theorem test_decode_commandFrame :
    (decodeWire (cfg .inf) (cmd1 ++ [0x77])).toOption = some (.commandFrame 0x03 0x07 0xFB) := by decide
/-- One matching marker byte is no recognized header (R66); the lengths of R59. -/
theorem test_decodeWire_rejects :
    ([[], [0xAA], [0xAA, 0xCC], [0xAA, 0xBB], ex1.take 8, [0x5A, 0xA5, 0x03, 0x07]].map fun w =>
      match decodeWire (cfg .inf) w with
      | .ok _ => none
      | .error e => some e) =
      [some .noHeader, some .noHeader, some .unknownHeader, some .incomplete, some .incomplete, some .incomplete] := by
  decide
/-- The encodings of program P3. -/
theorem test_encode :
    [Instr.encodeCommand 0x10 0x01, .append 0x5A, .decode [0x5A, 0xA5, 0x10, 0x01, 0xEE]].map (encode (cfg .inf)) =
      [[0x06, 0x10, 0x01], [0x01, 0x5A], [0x07, 0x05, 0x5A, 0xA5, 0x10, 0x01, 0xEE]] := by decide
theorem test_encode_frames :
    [Instr.sensorFrame 0x05 0x01 0x41BC0000 0xE8, .commandFrame 0x03 0x07 0xFB].map (encode (cfg .inf)) =
      [ex1, cmd1] := by decide
/-- The written forms of R73. -/
theorem test_asm :
    [Instr.append 0xAA, .encodeSensor 0x05 0x01 0x41BC0000, .checksum [0xAA, 0xBB]].map Instr.asm =
      [some "APPEND 0xAA".toList, some "ENCODE_SENSOR 0x05, 0x01, 0x41BC0000".toList,
        some "CHECKSUM [0xAA, 0xBB]".toList] := by decide
/-- The 16-bit form of a marker (R44). -/
theorem test_word16 : Config.defaultSensMarker.word16 = 0xAABB := by decide
theorem test_decodeTableWord :
    [decodeTableWord 8 0x01, decodeTableWord 8 0x05, decodeTableWord 8 0x07, decodeTableWord 8 0x00,
      decodeTableWord 16 0xAABB] =
      [some (.append 0x00), some (.encodeSensor 0x00 0x00 0x00000000), some (.decode []),
        some (.reservedRequest [0x00]), some (.sensorFrame 0x00 0x00 0x00000000 0x00)] := by decide
/-- EX-1 and DEC-8 as the numbers of R60 and R61. -/
theorem test_windowWord : [ex1, cmd1].map windowWord = [0xAABB050141BC0000E8, 0x5AA50307FB] := by decide
/-- EX-1's number, and its header and id as the table numbers them. -/
theorem test_decodeTableWord_sensorFrame :
    [decodeTableWord 72 0xAABB050141BC0000E8, decodeTableWord 72 0x05AABB] =
      [some (.sensorFrame 0x05 0x01 0x41BC0000 0xE8), some (.sensorFrame 0x05 0x00 0x00000000 0x00)] := by decide
/-- DEC-8's number (R61): the operands, whatever the open command marker is. -/
theorem test_decodeTableWord_commandFrame :
    decodeTableWord 40 0x5AA50307FB = some (.commandFrame 0x03 0x07 0xFB) := by
  have h : (⟨Config.openCmdMarker.m0, Config.openCmdMarker.m1⟩ : Marker) ≠ Config.defaultSensMarker :=
    fun e => openCmdMarker_ne e.symm
  simp [decodeTableWord, tableRow, wordWindow, tableByte, decodeWire, Config.initial, h]
theorem test_withFetchWord_request :
    step (State.reset.withFetchWord 8 0x05) =
      exec (.encodeSensor 0x00 0x00 0x00000000) (State.reset.withFetchWord 8 0x05) := rfl
theorem test_withFetchWord_frame :
    step (State.reset.withFetchWord 16 0xAABB) =
      exec (.sensorFrame 0x00 0x00 0x00000000 0x00) (State.reset.withFetchWord 16 0xAABB) := rfl

/-! ### One step of each instruction -/

/-- RQ-3. -/
theorem test_append_takes :
    (goesTo (exec (.append 0xBB) (holding [0xAA]))).map (fun t => (t.buf, t.responses)) =
      some ([0xAA, 0xBB], [{ status := .ok, len := 2 }]) := by decide
/-- RQ-4. -/
theorem test_append_full :
    (goesTo (exec (.append 0x0A) (holding9 [1, 2, 3, 4, 5, 6, 7, 8, 9]))).map (fun t => (t.buf, t.responses)) =
      some ([1, 2, 3, 4, 5, 6, 7, 8, 9], [{ status := .bufferFull, len := 9 }]) := by decide
/-- RQ-7. -/
theorem test_step_yield :
    scanned .step (holding (cmd1 ++ [0x00])) =
      some ([0x00], [(some .yield, some [.frame (.command 0x03 0x07)])]) := by decide
/-- RQ-8: five bytes would do for a command frame, not for a sensor frame. -/
theorem test_step_wait :
    scanned .step (holding [0xAA, 0xBB, 0x05, 0x01, 0x41]) =
      some ([0xAA, 0xBB, 0x05, 0x01, 0x41], [(some .stopWait, some [])]) := by decide
/-- RV-3: a bad checksum, and the scan goes on from offset 1. -/
theorem test_poll_resync :
    scanned .poll (holding (ex1.take 8 ++ [0xE9] ++ ex1)) =
      some ([], [(some .stopNeedData,
        some ([.error .checksumMismatch] ++ List.replicate 8 (.error .unknownHeader) ++
          [.frame (.sensor 0x05 0x01 0x41BC0000)]))]) := by decide
/-- RV-11: a coincidental frame inside a corrupt one. -/
theorem test_poll_coincidental :
    scanned .poll (holding ([0xAA, 0xBB] ++ cmd1 ++ [0x00, 0x00, 0x00])) =
      some ([0x00], [(some .stopNeedData,
        some [.error .checksumMismatch, .error .unknownHeader, .frame (.command 0x03 0x07), .error .unknownHeader,
          .error .unknownHeader])]) := by decide
/-- RQ-2. -/
theorem test_reset :
    (goesTo (exec .reset (holding [0xAA, 0xBB, 0x01]))).map (fun t => (t.buf, t.responses, t.events)) =
      some ([], [{ status := .ok, len := 0 }], []) := by decide
/-- ENC-4 and ENC-7. -/
theorem test_encodeSensor :
    [exec (.encodeSensor 0x12 0x02 0xBF800000) (holding []), exec (.encodeSensor 0x01 0x02 0x7F800001) (holding [])].map
      (fun o => (goesTo o).map fun t => t.responses.map Response.bytes) =
      [some [some [0xAA, 0xBB, 0x12, 0x02, 0xBF, 0x80, 0x00, 0x00, 0x3E]],
        some [some [0xAA, 0xBB, 0x01, 0x02, 0x7F, 0x80, 0x00, 0x01, 0xEC]]] := by decide
/-- ENC-12. -/
theorem test_encodeCommand :
    (goesTo (exec (.encodeCommand 0x10 0x01) (holding []))).map (fun t => t.responses.map Response.bytes) =
      some [some [0x5A, 0xA5, 0x10, 0x01, 0xEE]] := by decide
/-- DEC-7, DEC-10, DEC-12, DEC-13, DEC-15. -/
theorem test_decode_results :
    [ex1 ++ [0x77], [0xAA, 0xBB, 0x04, 0x01, 0x41, 0xBC, 0x00, 0x00, 0xE8],
      [0xAA, 0xBB, 0x04, 0x00, 0x41, 0xBC, 0x00, 0x00, 0xE8], cmd1.take 4,
      [0xAA, 0xCC, 0x00, 0x00, 0x00, 0x00, 0x00, 0x00, 0x00]].map (decodeFrame (cfg .inf)) =
      [.ok (.sensor 0x05 0x01 0x41BC0000) 9, .err .checksumMismatch, .ok (.sensor 0x04 0x00 0x41BC0000) 9,
        .err .tooShort, .err .unknownHeader] := by decide
/-- DEC-4: the status is the result's code. -/
theorem test_decode_status :
    (goesTo (exec (.decode [0x12, 0x34]) (holding [0x01]))).map
      (fun t => t.responses.map fun r => (r.status.code, r.len, r.result)) =
      some [(0x03, 1, some (.err .unknownHeader))] := by decide
/-- CK-5. -/
theorem test_checksum :
    (goesTo (exec (.checksum (ex1.take 8)) (holding []))).map (fun t => t.responses.map Response.chk) =
      some [some 0xE8] := by decide
/-- RQ-9. -/
theorem test_reserved :
    (goesTo (step (asked (holding [0x01]) [0x09]))).map (fun t => (t.buf, t.requests, t.responses)) =
      some ([0x01], [], [{ status := .illegalRequest, len := 1 }]) := by decide
/-- R107 at the buffer's head. -/
theorem test_sensorFrame :
    scanned (.sensorFrame 0x05 0x01 0x41BC0000 0xE8) (holding (ex1 ++ [0x77])) =
      some ([0x77], [(some .yield, some [.frame (.sensor 0x05 0x01 0x41BC0000)])]) := by decide
/-- R108: DEC-14's window. -/
theorem test_commandFrame :
    scanned (.commandFrame 0x03 0x07 0xFA) (holding (cmd1.take 4 ++ [0xFA])) =
      some ([0xA5, 0x03, 0x07, 0xFA], [(some .resync, some [.error .checksumMismatch])]) := by decide
/-- R34: a held STEP does not occur; its request stays. -/
theorem test_held :
    goesTo (step (refusing (asked (holding [0x01, 0x02]) [0x02]))) = some (asked (holding [0x01, 0x02]) [0x02]) := by
  decide
/-- R34: a STEP with no event needs no acceptance. -/
theorem test_silent_step :
    (goesTo (step (refusing (asked (holding [0x01]) [0x02])))).map (fun t => (t.buf, t.requests, t.consumer)) =
      some ([0x01], [], ⟨[false], true⟩) := by decide
/-- R147: the capacity bound and the marker inequality. -/
theorem test_legal :
    [cfg .inf, cfg (.finite 9), cfg (.finite 8), ⟨⟨0xAA, 0xBB⟩, ⟨0xAA, 0xBB⟩, .inf⟩].map Config.legal =
      [true, true, false, false] := by decide
/-- R38: the offsets of the buffer's bytes. -/
theorem test_cells : Memory.cells [0x11, 0x22] = [(0, 0x11), (1, 0x22)] := by decide

/-! ### Witnesses: the hypotheses of each statement can be met -/

theorem witness_CreationChecksConfiguration : (cfg (.finite 8)).legal = false ∧ (cfg (.finite 9)).legal = true := by
  decide
theorem witness_StepKeepsInvariant : ∃ s t : State, s.Inv ∧ step s = .next t :=
  ⟨asked (holding9 [1, 2, 3, 4, 5, 6, 7, 8, 9]) [0x02], _, by decide, rfl⟩
theorem witness_ConfigurationIsFixed : ∃ (i : Instr) (s t : State), exec i s = .next t :=
  ⟨.reset, holding [0xAA], _, rfl⟩
theorem witness_FrameLengthByHeader : (cfg .inf).legal = true := by decide
theorem witness_DecodeInvertsEncode :
    (cfg .inf).sensMarker ≠ (cfg .inf).cmdMarker ∧ (Instr.decode (List.replicate 255 0xFF)).wellFormed = true ∧
      (Instr.commandFrame 0x03 0x07 0x00).wellFormed = true ∧ (Instr.commandFrame 0x03 0x07 0x00).channel = .wire :=
  ⟨by decide, wellFormed_decode_replicate 255 _, rfl, rfl⟩
theorem witness_EncodeInvertsWireDecode : ∃ i, decodeWire (cfg .inf) ex1 = .ok i := ⟨_, rfl⟩
theorem witness_IllFormedRecords :
    decodeRequest [0x09] = .reservedRequest [0x09] ∧ decodeRequest [0x08] = .reservedRequest [0x08] ∧
      decodeRequest [0x08, 0x00] ≠ .reservedRequest [0x08, 0x00] ∧ (asked (holding []) [0x09]).requests = [[0x09]] := by
  decide
theorem witness_EmptyRecordIsIllegal : (asked (holding []) []).requests = [[]] := rfl
theorem witness_StepPerformsOldestRequest :
    (Instr.checksum (List.replicate 255 0x01)).channel = .request ∧
      (Instr.checksum (List.replicate 255 0x01)).wellFormed = true ∧
      (asked (holding []) (encode (cfg .inf) (.checksum (List.replicate 255 0x01)))).requests =
        [encode (cfg .inf) (.checksum (List.replicate 255 0x01))] := ⟨rfl, wellFormed_checksum_replicate 255 _, rfl⟩
theorem witness_StepRunsFrameAtHead :
    (cfg .inf).sensMarker ≠ (cfg .inf).cmdMarker ∧ (Instr.sensorFrame 0x05 0x01 0x41BC0000 0xE8).channel = .wire ∧
      (asked (holding ex1) [0x02]).buf = encode (cfg .inf) (.sensorFrame 0x05 0x01 0x41BC0000 0xE8) ++ [] ∧
      (asked (holding ex1) [0x02]).requests = [[0x02]] := by decide
theorem witness_PlacedWordRunsNext :
    State.reset.cfg = Config.initial ∧
      decodeTableWord 16 0xAABB = some (.sensorFrame 0x00 0x00 0x00000000 0x00) ∧
      decodeTableWord 8 0x04 = some .reset := ⟨rfl, by decide, by decide⟩
theorem witness_AppendAddsOneByte :
    ((holding9 [1, 2, 3, 4, 5, 6, 7, 8, 9]).cfg.cap = .finite 9 ∧
      (holding9 [1, 2, 3, 4, 5, 6, 7, 8, 9]).buf.length = 9) ∧
    ((holding9 [1, 2, 3, 4, 5, 6, 7, 8]).cfg.cap = .finite 9 ∧ (holding9 [1, 2, 3, 4, 5, 6, 7, 8]).buf.length ≠ 9) ∧
    (holding []).cfg.cap = .inf := by decide
theorem witness_ResetMatchesCreation :
    ∃ s t f : State, exec .reset s = .next t ∧ create s.cfg = .next f ∧ s.buf ≠ [] :=
  ⟨holding ex1, _, _, rfl, rfl, by decide⟩
/-- The seven cases, each at a boundary: one byte; 8 bytes of a sensor frame; 4 of a command frame; whole windows, right
and wrong; a header that shares one byte with a marker. -/
theorem witness_StepScansOnce :
    (holding [0xAA]).buf.length < 2 ∧
    (ex1.take 8).length < 9 ∧ headerOf (ex1.take 8) = some (cfg .inf).sensMarker ∧
    (cmd1.take 4).length < 5 ∧ headerOf (cmd1.take 4) = some (cfg .inf).cmdMarker ∧
    (0xE8 : Byte) = 0xAA ^^^ 0xBB ^^^ 0x05 ^^^ 0x01 ^^^ 0x41 ^^^ 0xBC ^^^ 0x00 ^^^ 0x00 ∧
    (0xE9 : Byte) ≠ 0xAA ^^^ 0xBB ^^^ 0x05 ^^^ 0x01 ^^^ 0x41 ^^^ 0xBC ^^^ 0x00 ^^^ 0x00 ∧
    (0xFB : Byte) = 0x5A ^^^ 0xA5 ^^^ 0x03 ^^^ 0x07 ∧ (0xFA : Byte) ≠ 0x5A ^^^ 0xA5 ^^^ 0x03 ^^^ 0x07 ∧
    (⟨0xAA, 0xCC⟩ : Marker) ≠ (cfg .inf).sensMarker ∧ (⟨0xAA, 0xCC⟩ : Marker) ≠ (cfg .inf).cmdMarker ∧
    (holding ex1).consumer.offer = (true, ⟨[], true⟩) := by decide
theorem witness_PollRepeatsStep :
    (scanPoll (cfg .inf) [0xAA]).events = [] ∧ (scanPoll (cfg .inf) [0x01, 0x02]).events ≠ [] ∧
      (holding [0x01, 0x02]).consumer.offer = (true, ⟨[], true⟩) ∧
      (scanStep (cfg .inf) [0xAA]).outcome.stops = true ∧ (scanStep (cfg .inf) ex1).outcome.stops = false := by decide
theorem witness_PollIsBoundedRunOfSteps : (holding ex1).consumer = ⟨[], true⟩ := rfl
/-- With an event and without one, and a frame row. -/
theorem witness_HeldScanDoesNotOccur :
    (refusing (holding [0x01, 0x02])).consumer.offer = (false, ⟨[], true⟩) ∧
      (scanStep (cfg .inf) [0x01, 0x02]).events ≠ [] ∧ (scanPoll (cfg .inf) [0x01, 0x02]).events ≠ [] ∧
      (scanStep (cfg .inf) [0x01]).events = [] ∧ (scanPoll (cfg .inf) (ex1.take 8)).events = [] ∧
      (Instr.commandFrame 0x03 0x07 0xFB).channel = .wire := by decide
/-- The request and the scan, then the consumers of each clause, with one listed refusal and with none. -/
theorem witness_OnlyConsumerLiftsHold :
    (asked (holding [0x01, 0x02]) [0x03]).requests = [encode (cfg .inf) .poll] ∧
      (scanStep (cfg .inf) [0x01, 0x02]).events ≠ [] ∧
      (Consumer.mk [false, true] true).answers = List.replicate 1 false ++ true :: [] ∧
      (Consumer.mk [true] true).answers = List.replicate 0 false ++ true :: [] ∧
      (refusing (holding [0x01, 0x02])).consumer = ⟨List.replicate 1 false, true⟩ ∧
      (holding [0x01, 0x02]).consumer = ⟨List.replicate 0 false, true⟩ ∧
      Consumer.mk [false] false = ⟨List.replicate 1 false, false⟩ ∧
      Consumer.mk [] false = ⟨List.replicate 0 false, false⟩ := by decide
/-- Each clause at a boundary: 1 byte, an unknown header, 8 and 4 bytes, whole windows with and without a tail. -/
theorem witness_DecodeAnswersResult :
    (cfg .inf).sensMarker ≠ (cfg .inf).cmdMarker ∧ (List.replicate 255 (0x00 : Byte)).length = (0xFF : Byte).toNat ∧
    ([0xAA] : Bytes).length < 2 ∧ (cfg .inf).frameLength ⟨0xAA, 0xCC⟩ = none ∧ (ex1.take 8).length < 9 ∧
    (cmd1.take 4).length < 5 ∧ headerOf (ex1 ++ [0x77]) = some (cfg .inf).sensMarker ∧
    headerOf cmd1 = some (cfg .inf).cmdMarker :=
  ⟨by decide, List.length_replicate, by decide, by decide, by decide, by decide, by decide, by decide⟩
theorem witness_ChecksumXorsAllBytes :
    (List.replicate 255 (0xFF : Byte)).length = (0xFF : Byte).toNat ∧ ([] : Bytes).length = (0x00 : Byte).toNat :=
  ⟨List.length_replicate, rfl⟩
theorem witness_SensorFrameRow : (holding ex1).consumer.offer = (true, ⟨[], true⟩) := rfl
theorem witness_CommandFrameRow :
    ({ holding cmd1 with consumer := ⟨[true], false⟩ } : State).consumer.offer = (true, ⟨[], false⟩) := rfl
theorem witness_CodecWritesOnlyResponse : ∃ w, Instr.decode ex1 = .decode w := ⟨_, rfl⟩
theorem witness_BufferDiscipline :
    ∃ t u v x : State, exec (.append 0x01) (holding []) = .next t ∧ exec .step (holding ex1) = .next u ∧
      exec .poll (holding ex1) = .next v ∧ exec .reset (holding ex1) = .next x := ⟨_, _, _, _, rfl, rfl, rfl, rfl⟩
theorem witness_OneResponsePerRequest :
    ∃ t u : State, exec .step (holding ex1) = .next t ∧ exec .step (refusing (holding ex1)) = .next u :=
  ⟨_, _, rfl, rfl⟩
theorem witness_ResponseFieldsPresent :
    ∃ (t : State) (r : Response), Instr.step.channel = .request ∧ exec .step (holding [0x01]) = .next t ∧
      t.responses = (holding [0x01]).responses ++ [r] := ⟨_, _, rfl, rfl, rfl⟩
theorem witness_HistoryIsNeverRead :
    ∃ s s' t t' : State, s.cfg = s'.cfg ∧ s.buf = s'.buf ∧ s.consumer = s'.consumer ∧ s.requests ≠ s'.requests ∧
      exec .step s = .next t ∧ exec .step s' = .next t' :=
  ⟨holding ex1, asked (holding ex1) [0x02], _, _, rfl, rfl, rfl, by decide, rfl, rfl⟩
theorem witness_CodecReadsNoState :
    ∃ (s s' t t' : State) (r r' : Response), s.cfg = s'.cfg ∧ s.buf ≠ s'.buf ∧ exec (.checksum ex1) s = .next t ∧
      exec (.checksum ex1) s' = .next t' ∧ newResponses s t = [r] ∧ newResponses s' t' = [r'] :=
  ⟨holding [], holding ex1, _, _, _, _, rfl, by decide, rfl, rfl, rfl, rfl⟩
theorem witness_VerifyIsZeroXor : 1 ≤ 9 ∧ 9 ≤ ex1.length ∧ 1 ≤ 1 ∧ 1 ≤ ([0x00] : Bytes).length := by decide
theorem witness_EncoderOutputsAreValid :
    ∃ (t : State) (bs : Bytes), exec (.encodeCommand 0x03 0x07) (holding []) = .next t ∧
      (newResponses (holding []) t).map Response.bytes = [some bs] := ⟨_, _, rfl, rfl⟩
theorem witness_DecodeInvertsFrameEncoding : (cfg .inf).sensMarker ≠ (cfg .inf).cmdMarker := by decide
theorem witness_FrameEncodingInvertsDecode :
    decodeFrame (cfg .inf) (ex1 ++ [0x77]) = .ok (.sensor 0x05 0x01 0x41BC0000) 9 := by decide
/-- The last bit of the last byte, a header that becomes unknown, and markers one bit apart, so that a flip turns one
into the other either way. -/
theorem witness_SingleBitErrors :
    (cfg .inf).sensMarker ≠ (cfg .inf).cmdMarker ∧
    8 < (enc (cfg .inf) (.sensor 0x05 0x01 0x41BC0000)).length ∧
    headerOf ((enc (cfg .inf) (.sensor 0x05 0x01 0x41BC0000)).modify 1 (flipBit 7)) = some ⟨0xAA, 0x3B⟩ ∧
    headerOf ((enc ⟨⟨0xAA, 0xBB⟩, ⟨0xAB, 0xBB⟩, .inf⟩ (.sensor 0x05 0x01 0x41BC0000)).modify 0 (flipBit 0)) =
      some ⟨0xAB, 0xBB⟩ ∧
    headerOf ((enc ⟨⟨0xAA, 0xBB⟩, ⟨0xAB, 0xBB⟩, .inf⟩ (.command 0x03 0x07)).modify 0 (flipBit 0)) =
      some ⟨0xAA, 0xBB⟩ := by decide
theorem witness_UndetectedErrors :
    (cfg .inf).sensMarker ≠ (cfg .inf).cmdMarker ∧ 4 < (enc (cfg .inf) (.command 0x03 0x07)).length ∧
    ([0x5A, 0xA5, 0x07, 0x03, 0xFB] : Bytes).length = (enc (cfg .inf) (.command 0x03 0x07)).length ∧
    ([0x5A, 0xA5, 0x07, 0x03, 0xFB] : Bytes).take 2 = (enc (cfg .inf) (.command 0x03 0x07)).take 2 ∧
    xorAll [0x5A, 0xA5, 0x07, 0x03, 0xFB] = 0x00 := by decide
theorem witness_StepMakesProgress :
    ∃ (t u v : State) (r r' r'' : Response), exec .step (holding ex1) = .next t ∧
      newResponses (holding ex1) t = [r] ∧ r.outcome = some .yield ∧
      exec .step (holding [0x01, 0x02]) = .next u ∧ newResponses (holding [0x01, 0x02]) u = [r'] ∧
      r'.outcome = some .resync ∧
      exec .step (holding [0x01]) = .next v ∧ newResponses (holding [0x01]) v = [r''] ∧
      r''.outcome = some .stopNeedData :=
  ⟨_, _, _, _, _, _, rfl, rfl, rfl, rfl, rfl, rfl, rfl, rfl, rfl⟩
theorem witness_PollLeavesQuiescent :
    ∃ (t : State) (r : Response), exec .poll (holding (ex1.take 8)) = .next t ∧
      newResponses (holding (ex1.take 8)) t = [r] ∧ t.buf.length = 8 := ⟨_, _, rfl, rfl, by decide⟩
theorem witness_FullBufferDrains :
    (holding9 ex1).cfg.legal = true ∧ (holding9 ex1).cfg.cap = .finite 9 ∧ (holding9 ex1).buf.length = 9 ∧
      (holding9 ex1).consumer.offer = (true, ⟨[], true⟩) := by decide
theorem witness_OnlyValidFramesEmitted :
    ∃ t : State, exec .poll (holding (0x01 :: ex1)) = .next t ∧
      Event.frame (.sensor 0x05 0x01 0x41BC0000) ∈ newEvents (holding (0x01 :: ex1)) t := ⟨_, rfl, by decide⟩
theorem witness_PollIsIdempotent :
    ∃ (t : State) (r : Response), exec .poll (holding ex1) = .next t ∧ newResponses (holding ex1) t = [r] :=
  ⟨_, _, rfl, rfl⟩
theorem witness_StreamOrderIsBufferOrder :
    ∃ t : State, (holding []).buf = [] ∧
      (∀ i ∈ [Instr.append 0x01, .append 0x02, .step], i.channel = .request ∧ i ≠ .reset) ∧
      runRequests [.append 0x01, .append 0x02, .step] (holding []) = .next t ∧ t.buf = [0x02] :=
  ⟨_, rfl, by decide, rfl, by decide⟩
theorem witness_StreamDeterminism :
    ∃ (t u : State) (r : Response), (holding []).buf = [] ∧
      (∀ i ∈ appends ex1, i.channel = .request ∧ i ≠ .reset) ∧ runRequests (appends ex1) (holding []) = .next t ∧
      exec .poll t = .next u ∧ newResponses t u = [r] := ⟨_, _, _, rfl, by decide, rfl, rfl, rfl⟩
/-- RV-5's bytes in a buffer that nine bytes fill, and no byte at all. -/
theorem witness_MarkerFreeBytesResync :
    (holding9 []).buf = [] ∧ (cfg (.finite 9)).cap.admits 9 = true ∧
      markerFree (cfg (.finite 9)) [0x10, 0x20, 0x30, 0x40, 0x50, 0x60, 0x70, 0x80, 0x90] = true ∧
      markerFree (cfg .inf) [] = true ∧ (holding9 []).consumer = ⟨[], true⟩ := by decide
theorem witness_AppendsTakesWhatFits :
    Memory.wf (holding9 [1, 2, 3, 4, 5, 6, 7, 8]).cfg.cap (holding9 [1, 2, 3, 4, 5, 6, 7, 8]).buf = true := by decide
theorem witness_InstancesAreIndependent :
    ∃ ss', stepInstance [holding ex1, asked (holding ex1) [0x02]] 1 = some ss' := ⟨_, rfl⟩
theorem witness_TableWordsReadFrameNumbers : (Instr.commandFrame 0x03 0x07 0xFB).channel = .wire := rfl

end Sys2Proof.Tests
end

section
/-! PROOFS. The statements about 00_scope.md: the frame length a header selects (R7) and the XOR of all bytes (R10). -/

namespace Sys2Proof.Machine

/-! ### The frame length -/

theorem frameLength_eq_nine_iff (c : Config) (h : Marker) : c.frameLength h = some 9 ↔ h = c.sensMarker := by
  constructor
  · intro hl
    obtain ⟨hs, -⟩ | ⟨-, -, h95⟩ := frameLength_eq_some hl
    · exact hs
    · exact absurd h95 (by decide)
  · rintro rfl
    exact frameLength_sens c

/-- Only this row needs the markers to be distinct: the sensor marker is matched first. -/
theorem frameLength_eq_five_iff {c : Config} (hne : c.sensMarker ≠ c.cmdMarker) (h : Marker) :
    c.frameLength h = some 5 ↔ h = c.cmdMarker := by
  constructor
  · intro hl
    obtain ⟨-, h59⟩ | ⟨-, hc, -⟩ := frameLength_eq_some hl
    · exact absurd h59 (by decide)
    · exact hc
  · rintro rfl
    exact frameLength_cmd hne

theorem frameLength_eq_none_iff (c : Config) (h : Marker) :
    c.frameLength h = none ↔ h ≠ c.sensMarker ∧ h ≠ c.cmdMarker := by
  unfold Config.frameLength
  split_ifs with hs hc
  · simp [hs]
  · simp [hc]
  · simp [hs, hc]

/-- Settles O6: one equivalence per row of R7, read at the two bytes of the header. -/
theorem frameLengthByHeader : Obligations.FrameLengthByHeader := by
  intro c m0 m1 hlegal
  have eq_marker_iff (m : Marker) : (⟨m0, m1⟩ : Marker) = m ↔ m0 = m.m0 ∧ m1 = m.m1 := by cases m; simp
  rw [← eq_marker_iff, ← eq_marker_iff]
  exact ⟨frameLength_eq_nine_iff c _, frameLength_eq_five_iff (legal_markers hlegal) _, frameLength_eq_none_iff c _⟩

/-! ### The XOR of all bytes -/

theorem xorAll_eq_foldr (s : Bytes) : xorAll s = s.foldr (· ^^^ ·) 0x00 := by
  induction s with
  | nil => rfl
  | cons b s ih => rw [xorAll, ih, List.foldr_cons]

/-- The direction of the fold does not matter, because XOR is associative and commutative. -/
theorem xorAll_eq_foldl (s : Bytes) : xorAll s = s.foldl (· ^^^ ·) 0x00 :=
  (xorAll_eq_foldr s).trans List.foldl_eq_foldr.symm

/-- Nor does the order of the bytes. -/
theorem xorAll_perm {s t : Bytes} (h : s.Perm t) : xorAll s = xorAll t := by
  rw [xorAll_eq_foldr, xorAll_eq_foldr]
  exact h.foldr_eq _

/-- Two equal bytes cancel (R81). -/
theorem xorAll_append_pair (s : Bytes) (x : Byte) : xorAll (s ++ [x, x]) = xorAll s := by
  have hpair : xorAll [x, x] = 0x00 := by simp [xorAll]
  rw [xorAll_append, hpair]
  exact BitVec.xor_zero

/-- Settles O39: `xorAll` is a fold of an associative and commutative operation in which every byte is its own
inverse. -/
theorem xorAllLaws : Obligations.XorAllLaws :=
  ⟨rfl, xorAll_eq_foldl, xorAll_append, fun _ _ => xorAll_perm, xorAll_append_pair⟩

end Sys2Proof.Machine
end

section
/-! PROOFS. The statements about 10_state.md: instances do not touch each other (R36). -/

namespace Sys2Proof.Machine

/-- A list of instances steps exactly when the chosen instance exists and steps, and only its place is replaced. -/
theorem stepInstance_eq_some_iff {ss ss' : List State} {k : Nat} :
    stepInstance ss k = some ss' ↔ ∃ s t, ss[k]? = some s ∧ step s = .next t ∧ ss.set k t = ss' := by
  unfold stepInstance
  cases hk : ss[k]? with
  | none => simp
  | some s => cases hs : step s <;> simp [hs]

/-- Settles O55: the new list is the old one with the result of the instance's own step put in its place. -/
theorem instancesAreIndependent : Obligations.InstancesAreIndependent := by
  intro ss ss' k h
  obtain ⟨s, t, hk, hs, rfl⟩ := stepInstance_eq_some_iff.mp h
  obtain ⟨hlt, -⟩ := List.getElem?_eq_some_iff.mp hk
  exact ⟨fun j hj => List.getElem?_set_ne hj.symm, s, t, hk, hs, List.getElem?_set_self hlt⟩

end Sys2Proof.Machine
end

section
/-! PROOFS. The statements about 20_memory.md: stream order is buffer order (R43). -/

namespace Sys2Proof.Machine

/-! ### A scan removes bytes from the head only -/

theorem scanLoop_buf_suffix (c : Config) (fuel : Nat) (buf : Bytes) : (scanLoop c fuel buf).buf <:+ buf := by
  induction fuel generalizing buf with
  | zero => exact List.suffix_rfl
  | succ fuel ih =>
    cases hs : (scanStep c buf).outcome.stops with
    | true =>
      rw [scanLoop_succ_stop hs]
      exact scanStep_buf_suffix c buf
    | false =>
      rw [scanLoop_succ_go hs]
      exact (ih _).trans (scanStep_buf_suffix c buf)

theorem scanPoll_buf_suffix (c : Config) (buf : Bytes) : (scanPoll c buf).buf <:+ buf :=
  scanLoop_buf_suffix c _ buf

theorem windowScan_buf_suffix (c : Config) (buf : Bytes) (f : Frame) (k : Byte) :
    (windowScan c buf f k).buf <:+ buf := by
  obtain ⟨-, e⟩ | ⟨-, e⟩ := windowScan_cases c buf f k <;> rw [e] <;> exact List.drop_suffix _ _

/-- A scan that takes effect writes its buffer, and a held one leaves the buffer (10_state.md R34). -/
theorem performScan_buf {r : ScanResult} {s t : State} (h : performScan r s = .next t) :
    t.buf = r.buf ∨ t.buf = s.buf := by
  obtain ⟨-, e⟩ | ⟨-, c, -, e⟩ | ⟨-, c, -, e⟩ := performScan_cases r s <;> cases e.symm.trans h
  · exact .inl rfl
  · exact .inl rfl
  · exact .inr rfl

/-- Only APPEND puts bytes into the buffer; every other instruction at most removes some from the head. -/
theorem exec_buf_suffix {i : Instr} {s t : State} (hi : ∀ b, i ≠ .append b) (h : exec i s = .next t) :
    t.buf <:+ s.buf := by
  obtain ⟨r, rfl, -⟩ | ⟨b, hb, -⟩ | ⟨-, rfl⟩ | ⟨r, hr, hscan⟩ := exec_cases h
  · exact List.suffix_rfl
  · exact absurd hb (hi b)
  · exact List.nil_suffix
  · have hsuffix : r.buf <:+ s.buf := by
      obtain ⟨-, rfl⟩ | ⟨-, rfl⟩ | ⟨-, f, k, rfl⟩ := hr
      · exact scanStep_buf_suffix _ _
      · exact scanPoll_buf_suffix _ _
      · exact windowScan_buf_suffix _ _ f k
    obtain e | e := performScan_buf hscan
    · rwa [e]
    · rw [e]

/-! ### The accepted stream -/

theorem exec_append_of_full {s : State} (b : Byte) (hf : s.cfg.cap.isFull s.buf.length = true) :
    exec (.append b) s = .next (s.answer { status := .bufferFull, len := s.buf.length }) :=
  if_pos hf

theorem exec_append_of_room {s : State} (b : Byte) (hf : s.cfg.cap.isFull s.buf.length = false) :
    exec (.append b) s =
      .next ((s.withBuf (bufAppend s.buf b)).answer { status := .ok, len := (bufAppend s.buf b).length }) :=
  if_neg (by simp [hf])

/-- An APPEND is accepted, by its OK response, exactly when the buffer has room (41_reassembler.md R104). -/
theorem acceptedBy_append (b : Byte) (s : State) :
    acceptedBy (.append b) s = if s.cfg.cap.isFull s.buf.length then [] else [b] := by
  cases hf : s.cfg.cap.isFull s.buf.length with
  | true => simp [acceptedBy, exec_append_of_full b hf]
  | false => simp [acceptedBy, exec_append_of_room b hf]

theorem acceptedBy_of_ne_append {i : Instr} (s : State) (hi : ∀ b, i ≠ .append b) : acceptedBy i s = [] := by
  cases i
  case append b => exact absurd rfl (hi b)
  all_goals rfl

theorem exec_append_buf {b : Byte} {s t : State} (h : exec (.append b) s = .next t) :
    t.buf = s.buf ++ acceptedBy (.append b) s := by
  rw [acceptedBy_append]
  cases hf : s.cfg.cap.isFull s.buf.length with
  | true =>
    cases (exec_append_of_full b hf).symm.trans h
    simp
  | false =>
    cases (exec_append_of_room b hf).symm.trans h
    simp [bufAppend]

/-- One instruction's part of the stream order: accepted bytes go to the tail, removed ones leave from the head. -/
theorem exec_buf_suffix_accepted {i : Instr} {s t : State} (h : exec i s = .next t) :
    t.buf <:+ s.buf ++ acceptedBy i s := by
  by_cases hi : ∃ b, i = .append b
  · obtain ⟨b, rfl⟩ := hi
    rw [exec_append_buf h]
  · rw [not_exists] at hi
    rw [acceptedBy_of_ne_append s hi, List.append_nil]
    exact exec_buf_suffix hi h

/-! ### Runs of requests -/

theorem runRequests_cons_eq_next_iff {i : Instr} {is : List Instr} {s t : State} :
    runRequests (i :: is) s = .next t ↔ ∃ u, exec i s = .next u ∧ runRequests is u = .next t := by
  cases h : exec i s <;> simp [runRequests, h]

theorem acceptedStream_cons {i : Instr} {s u : State} (is : List Instr) (h : exec i s = .next u) :
    acceptedStream (i :: is) s = acceptedBy i s ++ acceptedStream is u := by
  simp [acceptedStream, h]

/-- The buffer after a run is what remains at the tail of the bytes that stood in it and those it accepted. This holds
of a run with RESETs too: a RESET removes every byte. -/
theorem runRequests_buf_suffix {is : List Instr} {s t : State} (h : runRequests is s = .next t) :
    t.buf <:+ s.buf ++ acceptedStream is s := by
  induction is generalizing s with
  | nil =>
    cases h
    simp [acceptedStream]
  | cons i is ih =>
    obtain ⟨u, hexec, hrun⟩ := runRequests_cons_eq_next_iff.mp h
    have hstep : u.buf ++ acceptedStream is u <:+ s.buf ++ acceptedBy i s ++ acceptedStream is u :=
      List.suffix_append_self_iff.mpr (exec_buf_suffix_accepted hexec)
    rw [acceptedStream_cons is hexec, ← List.append_assoc]
    exact (ih hrun).trans hstep

/-- In a suffix, element `k` of the whole list stands `k - d` from the start, `d` being the number of elements before
the suffix. -/
theorem readByte_of_suffix {buf stream : Bytes} (h : buf <:+ stream) :
    ∃ d, buf.length + d = stream.length ∧ ∀ k, d ≤ k → readByte buf (k - d) = stream[k]? := by
  obtain ⟨removed, rfl⟩ := h
  refine ⟨removed.length, by simp [Nat.add_comm], fun k hk => ?_⟩
  exact (List.getElem?_append_right hk).symm

/-- Settles O51: from an empty buffer, the buffer after the run is a suffix of the accepted stream. -/
theorem streamOrderIsBufferOrder : Obligations.StreamOrderIsBufferOrder := by
  intro is s t hempty _ hrun
  have hsuffix : t.buf <:+ acceptedStream is s := by
    simpa [hempty] using runRequests_buf_suffix hrun
  exact readByte_of_suffix hsuffix

end Sys2Proof.Machine
end

section
/-! PROOFS. The statements about 30_encoding.md: ill-formed request records (R71) and the numbering of the frames (R60,
R61). -/

namespace Sys2Proof.Machine

/-! ### Ill-formed records -/

/-- The decoder gives up on a record exactly when R71 finds a defect in it. -/
theorem decodeRequest_eq_reservedRequest_iff (r : Bytes) :
    decodeRequest r = .reservedRequest r ↔ (requestDefect r).isSome = true := by
  obtain ⟨b, rfl, e⟩ | ⟨rfl, e⟩ | ⟨rfl, e⟩ | ⟨rfl, e⟩ | ⟨i, t, v3, v2, v1, v0, rfl, e⟩ | ⟨a, k, rfl, e⟩ |
    ⟨n, w, rfl, hw, e⟩ | ⟨n, data, rfl, hdata, e⟩ | ⟨hdefect, e⟩ := decodeRequest_cases r
  on_goal 9 => exact iff_of_true e hdefect
  all_goals
    rw [e]
    refine iff_of_false nofun ?_
    simp [requestDefect, recordLength, Nat.add_comm 2, *]

/-- A record with an opcode has no defect exactly when it has the length its opcode asks for. -/
theorem requestDefect_cons_isSome_iff (opcode : Byte) (args : Bytes) :
    (requestDefect (opcode :: args)).isSome = true ↔
      ∀ n, recordLength opcode (args.headD 0) = some n → args.length + 1 ≠ n := by
  simp only [requestDefect]
  cases recordLength opcode (args.headD 0) with
  | none => simp
  | some n => by_cases hn : args.length + 1 = n <;> simp [hn]

/-- Every opcode is reserved or is one of the eight of R70. -/
theorem opcode_cases (opcode : Byte) :
    (opcode = 0x00 ∨ 0x09 ≤ opcode.toNat) ∨ opcode = 0x01 ∨ opcode = 0x02 ∨ opcode = 0x03 ∨ opcode = 0x04 ∨
      opcode = 0x05 ∨ opcode = 0x06 ∨ opcode = 0x07 ∨ opcode = 0x08 := by
  bv_omega

theorem recordLength_of_reserved {opcode : Byte} (count : Byte) (h : opcode = 0x00 ∨ 0x09 ≤ opcode.toNat) :
    recordLength opcode count = none := by
  unfold recordLength
  obtain rfl | h := h
  · rfl
  · split
    case h_9 => rfl
    all_goals omega

/-- The length of a counted record (DECODE, CHECKSUM) is wrong exactly when no count byte matches the bytes after it. -/
theorem countedLength_ne_iff (args : Bytes) :
    args.length + 1 ≠ 2 + (args.headD 0).toNat ↔ ∀ n w, args = n :: w → w.length ≠ n.toNat := by
  cases args with
  | nil => simp
  | cons n w =>
    have hlen : w.length + 1 + 1 ≠ 2 + n.toNat ↔ w.length ≠ n.toNat := by omega
    simpa using hlen

theorem step_of_pending {s : State} {record : Bytes} {rs : List Bytes} (h : s.requests = record :: rs) :
    step s = exec (decodeRequest record) s := by
  simp [step, h]

/-- A pending ill-formed record is removed and answered, and nothing else changes. -/
theorem step_of_pending_reserved {s : State} {record : Bytes} {rs : List Bytes} (h : s.requests = record :: rs)
    (hd : decodeRequest record = .reservedRequest record) :
    step s = .next { s with
      requests := rs
      responses := s.responses ++ [{ status := .illegalRequest, len := s.buf.length }] } := by
  rw [step_of_pending h, hd]
  simp [exec, execReservedRequest, State.answer, h]

/-- Settles O11: a record decodes to RESERVED_REQUEST exactly when it has not the length of its opcode, read off for
each opcode; such a record is only answered. -/
theorem illFormedRecords : Obligations.IllFormedRecords := by
  intro opcode args
  refine ⟨?_, fun hd s rs hs => step_of_pending_reserved hs hd⟩
  rw [decodeRequest_eq_reservedRequest_iff, requestDefect_cons_isSome_iff, ← countedLength_ne_iff]
  obtain hres | hop := opcode_cases opcode
  · rw [recordLength_of_reserved _ hres, ← or_assoc]
    exact iff_of_true nofun (.inl hres)
  · obtain rfl | rfl | rfl | rfl | rfl | rfl | rfl | rfl := hop <;> simp [recordLength]

/-! ### Frames as numbers -/

theorem windowWord_append (a b : Bytes) : windowWord (a ++ b) = windowWord a * 2 ^ (8 * b.length) + windowWord b := by
  induction a with
  | nil => simp [windowWord]
  | cons x a ih =>
    rw [List.cons_append, windowWord, windowWord, ih, List.length_append, Nat.mul_add, pow_add]
    ring

/-- The bytes of a 32-bit value, most significant first, number the value itself (20_memory.md R45). -/
theorem windowWord_bigEndian (v : Word32) : windowWord (bigEndian v) = v.toNat := by
  have hv := v.isLt
  simp only [bigEndian, windowWord, List.length_cons, List.length_nil, BitVec.extractLsb'_toNat,
    Nat.shiftRight_eq_div_pow]
  omega

theorem encode_sensorFrame (c : Config) (i t : Byte) (v : Word32) (k : Byte) :
    encode c (.sensorFrame i t v k) = frameBody c (.sensor i t v) ++ [k] := rfl

theorem encode_commandFrame (c : Config) (a y k : Byte) :
    encode c (.commandFrame a y k) = frameBody c (.command a y) ++ [k] := rfl

theorem windowWord_sensorFrame (c : Config) (i t : Byte) (v : Word32) (k : Byte) :
    windowWord (encode c (.sensorFrame i t v k)) =
      c.sensMarker.m0.toNat * 2 ^ 64 + c.sensMarker.m1.toNat * 2 ^ 56 + i.toNat * 2 ^ 48 + t.toNat * 2 ^ 40 +
        v.toNat * 2 ^ 8 + k.toNat := by
  have hlen : (bigEndian v).length = 4 := rfl
  rw [encode_sensorFrame, frameBody, windowWord_append, windowWord_append, windowWord_bigEndian, hlen]
  simp only [windowWord, List.length_cons, List.length_nil]
  ring

theorem windowWord_commandFrame (c : Config) (a y k : Byte) :
    windowWord (encode c (.commandFrame a y k)) =
      c.cmdMarker.m0.toNat * 2 ^ 32 + c.cmdMarker.m1.toNat * 2 ^ 24 + a.toNat * 2 ^ 16 + y.toNat * 2 ^ 8 + k.toNat := by
  rw [encode_commandFrame, frameBody, windowWord_append]
  simp only [windowWord, List.length_cons, List.length_nil]
  ring

/-- An encoded frame is the window whose checksum byte is that of the bytes before it (40_codec.md R85). -/
theorem enc_sensor (c : Config) (i t : Byte) (v : Word32) (k : Byte) :
    enc c (.sensor i t v) = encode c (.sensorFrame i t v (xorAll ((encode c (.sensorFrame i t v k)).take 8))) := by
  have hbody : (encode c (.sensorFrame i t v k)).take 8 = frameBody c (.sensor i t v) := rfl
  rw [hbody, encode_sensorFrame, enc, chk]

/-- The same for a command frame. -/
theorem enc_command (c : Config) (a y k : Byte) :
    enc c (.command a y) = encode c (.commandFrame a y (xorAll ((encode c (.commandFrame a y k)).take 4))) := by
  have hbody : (encode c (.commandFrame a y k)).take 4 = frameBody c (.command a y) := rfl
  rw [hbody, encode_commandFrame, enc, chk]

/-- Settles O57: the number of a concatenation is the sum of its parts' numbers, each at its own bit position. -/
theorem frameWordNumbering : Obligations.FrameWordNumbering := fun c i t v a y k =>
  ⟨windowWord_sensorFrame c i t v k, windowWord_commandFrame c a y k, Laws.EncodedLength.sensorFrame i t v k c,
    Laws.EncodedLength.commandFrame a y k c, enc_sensor c i t v k, enc_command c a y k⟩

end Sys2Proof.Machine
end

section
/-! PROOFS. The statements about 40_codec.md: the checksum and the verifier (R82, R83), decoding (R90 to R96), encoding
(R86 to R89), the errors that the checksum detects and those that it does not (R97, R98), and what the codec requests
leave unchanged (R99). -/

namespace Sys2Proof.Machine

/-! ### The checksum and the verifier -/

/-- The checksum of some bytes is their XOR from the first one on. -/
theorem chk_cons (b : Byte) (bs : Bytes) : chk (b :: bs) = bs.foldl (· ^^^ ·) b := by
  rw [chk, xorAll_eq_foldl, List.foldl_cons]
  congr 1
  exact BitVec.zero_xor

theorem verify_eq_true_iff (w : Bytes) (L : Nat) : verify w L = true ↔ w[L - 1]? = some (chk (w.take (L - 1))) :=
  beq_iff_eq

/-- R83: the checksum byte is right exactly when it makes the XOR of the window zero. -/
theorem verify_iff_xorAll {w : Bytes} {L : Nat} (hpos : 1 ≤ L) (hle : L ≤ w.length) :
    verify w L = true ↔ xorAll (w.take L) = 0x00 := by
  have hlt : L - 1 < w.length := by omega
  have htake : w.take L = w.take (L - 1) ++ [w[L - 1]] := by
    rw [List.take_append_getElem, Nat.sub_add_cancel hpos]
  rw [verify_eq_true_iff, htake, ← eq_chk_iff, List.getElem?_eq_getElem hlt, Option.some.injEq]

theorem verify_take_append {w : Bytes} {L : Nat} (extra : Bytes) (hpos : 1 ≤ L) (hle : L ≤ w.length) :
    verify (w.take L ++ extra) L = verify w L := by
  have htake : (w.take L ++ extra).take L = w.take L := List.take_left' (by simpa using hle)
  have hle' : L ≤ (w.take L ++ extra).length := by simp [hle]
  rw [Bool.eq_iff_iff, verify_iff_xorAll hpos hle', verify_iff_xorAll hpos hle, htake]

/-- Settles O40: `verify` read at byte `L - 1`, and the XOR of the window split there. -/
theorem verifyIsZeroXor : Obligations.VerifyIsZeroXor := fun w extra L hpos hle =>
  ⟨verify_eq_true_iff w L, verify_iff_xorAll hpos hle, verify_take_append extra hpos hle⟩

/-- Settles O29: the checksum as a fold from the left. -/
theorem checksumXorsAllBytes : Obligations.ChecksumXorsAllBytes := by
  intro s data
  refine ⟨fun n hn => by simp [decodeRequest, hn], ?_⟩
  rw [← xorAll_eq_foldl]
  rfl

/-! ### The header -/

/-- The header is the first two bytes. -/
theorem headerOf_take_two (w : Bytes) : headerOf (w.take 2) = headerOf w := by
  match w with
  | [] | [_] | _ :: _ :: _ => rfl

theorem take_two_of_headerOf {w : Bytes} {h : Marker} (hh : headerOf w = some h) : w.take 2 = [h.m0, h.m1] := by
  obtain ⟨rest, rfl⟩ := headerOf_eq_some hh
  rfl

theorem headerOf_eq_of_take_two {w w' : Bytes} (h : w.take 2 = w'.take 2) : headerOf w = headerOf w' := by
  rw [← headerOf_take_two w, h, headerOf_take_two]

/-! ### The bytes of an encoded frame -/

/-- The marker of a frame's variant (30_encoding.md R59). -/
def Frame.marker (c : Config) : Frame → Marker
  | .sensor _ _ _ => c.sensMarker
  | .command _ _ => c.cmdMarker

theorem headerOf_enc (c : Config) (f : Frame) : headerOf (enc c f) = some (f.marker c) := by cases f <;> rfl

theorem frameLength_marker {c : Config} (hne : c.sensMarker ≠ c.cmdMarker) (f : Frame) :
    c.frameLength (f.marker c) = some f.length := by
  cases f
  · exact frameLength_sens c
  · exact frameLength_cmd hne

theorem xorAll_enc (c : Config) (f : Frame) : xorAll (enc c f) = 0x00 := (eq_chk_iff _ _).mp rfl

theorem take_enc (c : Config) (f : Frame) : (enc c f).take f.length = enc c f :=
  List.take_of_length_le (length_enc c f).le

theorem verify_enc (c : Config) (f : Frame) : verify (enc c f) f.length = true := by
  have hpos : 1 ≤ f.length := by cases f <;> simp [Frame.length]
  rw [verify_iff_xorAll hpos (length_enc c f).ge, take_enc, xorAll_enc]

theorem enc_sensor_u32be (c : Config) (i t v3 v2 v1 v0 : Byte) :
    enc c (.sensor i t (u32be v3 v2 v1 v0)) =
      [c.sensMarker.m0, c.sensMarker.m1, i, t, v3, v2, v1, v0,
        chk [c.sensMarker.m0, c.sensMarker.m1, i, t, v3, v2, v1, v0]] := by
  rw [enc, frameBody, bigEndian_u32be]
  rfl

theorem bigEndian_injective : Function.Injective bigEndian := by
  intro v v' h
  apply BitVec.eq_of_toNat_eq
  rw [← windowWord_bigEndian, h, windowWord_bigEndian]

/-- A frame is known by its bytes. Frames of different variants have different lengths, whatever the markers are. -/
theorem enc_injective (c : Config) : Function.Injective (enc c) := by
  intro f f' h
  have hlen : f.length = f'.length := by rw [← length_enc c, h, length_enc]
  have hbody : frameBody c f = frameBody c f' := (List.append_inj' h rfl).1
  match f, f' with
  | .sensor i t v, .sensor i' t' v' =>
    obtain ⟨hhead, hvalue⟩ := List.append_inj hbody rfl
    cases bigEndian_injective hvalue
    cases hhead
    rfl
  | .command a k, .command a' k' =>
    cases hbody
    rfl
  | .sensor _ _ _, .command _ _ => exact absurd hlen (by simp [Frame.length])
  | .command _ _, .sensor _ _ _ => exact absurd hlen (by simp [Frame.length])

/-! ### What `decode` answers, one lemma per row of R92 -/

theorem decodeFrame_of_length_lt_two (c : Config) {w : Bytes} (hw : w.length < 2) :
    decodeFrame c w = .err .tooShort := by
  match w, hw with
  | [], _ => rfl
  | [_], _ => rfl

theorem decodeFrame_of_unknown {c : Config} {w : Bytes} {h : Marker} (hh : headerOf w = some h)
    (hl : c.frameLength h = none) : decodeFrame c w = .err .unknownHeader := by
  simp [decodeFrame, hh, hl]

section
variable {c : Config} {w : Bytes} {h : Marker} {L : Nat} (hh : headerOf w = some h) (hl : c.frameLength h = some L)
include hh hl

theorem decodeFrame_of_incomplete (hlt : w.length < L) : decodeFrame c w = .err .tooShort := by
  simp [decodeFrame, hh, hl, hlt]

theorem decodeFrame_of_xor_ne_zero (hle : L ≤ w.length) (hx : xorAll (w.take L) ≠ 0x00) :
    decodeFrame c w = .err .checksumMismatch := by
  have hpos := frameLength_pos hl
  have hv : verify w L ≠ true := mt (verify_iff_xorAll (by omega) hle).mp hx
  simp [decodeFrame, hh, hl, hle.not_gt, hv]

/-- A window with a recognized header and zero XOR is the encoding of the frame it decodes to. -/
theorem decodeFrame_of_xor_eq_zero (hle : L ≤ w.length) (hx : xorAll (w.take L) = 0x00) :
    ∃ f, enc c f = w.take L ∧ decodeFrame c w = .ok f L := by
  obtain ⟨rest, rfl⟩ := headerOf_eq_some hh
  obtain ⟨rfl, rfl⟩ | ⟨hne, rfl, rfl⟩ := frameLength_eq_some hl
  · obtain ⟨i, t, v3, v2, v1, v0, k, tail, rfl⟩ :
        ∃ i t v3 v2 v1 v0 k tail, rest = i :: t :: v3 :: v2 :: v1 :: v0 :: k :: tail := by
      match rest, hle with
      | i :: t :: v3 :: v2 :: v1 :: v0 :: k :: tail, _ => exact ⟨i, t, v3, v2, v1, v0, k, tail, rfl⟩
    have hk := (eq_chk_iff [c.sensMarker.m0, c.sensMarker.m1, i, t, v3, v2, v1, v0] k).mpr hx
    refine ⟨.sensor i t (u32be v3 v2 v1 v0), ?_, ?_⟩
    · rw [enc_sensor_u32be, ← hk]
      rfl
    · rw [decodeFrame_sensor i t v3 v2 v1 v0 k tail rfl, if_pos hk]
  · obtain ⟨a, t, k, tail, rfl⟩ : ∃ a t k tail, rest = a :: t :: k :: tail := by
      match rest, hle with
      | a :: t :: k :: tail, _ => exact ⟨a, t, k, tail, rfl⟩
    have hk := (eq_chk_iff [c.cmdMarker.m0, c.cmdMarker.m1, a, t] k).mpr hx
    refine ⟨.command a t, ?_, ?_⟩
    · rw [enc, frameBody, ← hk]
      rfl
    · rw [decodeFrame_command a t k tail hne.symm rfl, if_pos hk]

/-- R93: bytes after the window do not matter. -/
theorem decodeFrame_take (hle : L ≤ w.length) : decodeFrame c (w.take L) = decodeFrame c w := by
  have hpos := frameLength_pos hl
  have hh' : headerOf (w.take L) = some h :=
    (headerOf_eq_of_take_two (by rw [List.take_take, min_eq_left hpos.1])).trans hh
  have hle' : L ≤ (w.take L).length := by simp [hle]
  have htake : (w.take L).take L = w.take L := by simp
  by_cases hx : xorAll (w.take L) = 0x00
  · obtain ⟨f, hf, hd⟩ := decodeFrame_of_xor_eq_zero hh hl hle hx
    obtain ⟨f', hf', hd'⟩ := decodeFrame_of_xor_eq_zero hh' hl hle' (by rwa [htake])
    rw [htake, ← hf] at hf'
    rw [hd, hd', enc_injective c hf']
  · rw [decodeFrame_of_xor_ne_zero hh hl hle hx, decodeFrame_of_xor_ne_zero hh' hl hle' (by rwa [htake])]

end

/-- A decoded frame's encoding is the window: only the last row of R92 answers a frame. -/
theorem enc_of_decodeFrame_eq_ok {c : Config} {w : Bytes} {f : Frame} {L : Nat} (hd : decodeFrame c w = .ok f L) :
    enc c f = w.take L := by
  cases hh : headerOf w with
  | none => cases (decodeFrame_of_length_lt_two c (headerOf_eq_none hh)).symm.trans hd
  | some h =>
    cases hl : c.frameLength h with
    | none => cases (decodeFrame_of_unknown hh hl).symm.trans hd
    | some L' =>
      by_cases hlt : w.length < L'
      · cases (decodeFrame_of_incomplete hh hl hlt).symm.trans hd
      by_cases hx : xorAll (w.take L') = 0x00
      · obtain ⟨f', hf', hd'⟩ := decodeFrame_of_xor_eq_zero hh hl (not_lt.mp hlt) hx
        cases hd'.symm.trans hd
        exact hf'
      · cases (decodeFrame_of_xor_ne_zero hh hl (not_lt.mp hlt) hx).symm.trans hd

/-- Settles O28: one row of R92 after another. -/
theorem decodeAnswersResult : Obligations.DecodeAnswersResult := by
  intro s w hne
  refine ⟨fun n hn => by simp [decodeRequest, hn], decodeFrame s.cfg w, rfl, decodeFrame_of_length_lt_two s.cfg, ?_⟩
  rintro m0 m1 rest rfl
  refine ⟨fun hs hc => ?_, fun hs => ?_, fun hc => ?_, ?_, ?_⟩
  · exact decodeFrame_of_unknown rfl ((frameLength_eq_none_iff s.cfg _).mpr ⟨hs, hc⟩)
  · exact decodeFrame_of_incomplete rfl ((frameLength_eq_nine_iff s.cfg _).mpr hs)
  · exact decodeFrame_of_incomplete rfl ((frameLength_eq_five_iff hne _).mpr hc)
  · rintro i t v3 v2 v1 v0 k tail hs rfl
    rw [decodeFrame_sensor i t v3 v2 v1 v0 k tail hs, chk_cons, u32be_eq_append]
    rfl
  · rintro a t k tail hc rfl
    rw [decodeFrame_command a t k tail hne hc, chk_cons]
    rfl

/-! ### Encoding and decoding invert each other -/

/-- Bytes that keep a frame's length, header and zero XOR are the encoding of the frame they decode to (R95, R98). -/
theorem decodeFrame_of_take_two {c : Config} (hne : c.sensMarker ≠ c.cmdMarker) (f : Frame) {w : Bytes}
    (hlen : w.length = (enc c f).length) (hhead : w.take 2 = (enc c f).take 2) (hx : xorAll w = 0x00) :
    ∃ f', enc c f' = w ∧ decodeFrame c w = .ok f' (enc c f).length := by
  have hh : headerOf w = some (f.marker c) := (headerOf_eq_of_take_two hhead).trans (headerOf_enc c f)
  rw [length_enc] at hlen ⊢
  have htake : w.take f.length = w := List.take_of_length_le hlen.le
  obtain ⟨f', hf', hd⟩ := decodeFrame_of_xor_eq_zero hh (frameLength_marker hne f) hlen.ge (by rwa [htake])
  exact ⟨f', hf'.trans htake, hd⟩

/-- Settles O42: the frame that the encoding decodes to has the same encoding, so it is the same frame. -/
theorem decodeInvertsFrameEncoding : Obligations.DecodeInvertsFrameEncoding := by
  intro c f hne
  obtain ⟨f', hf', hd⟩ := decodeFrame_of_take_two hne f rfl rfl (xorAll_enc c f)
  rw [hd, enc_injective c hf']

/-- Settles O43: both windows are the encoding of the frame. -/
theorem frameEncodingInvertsDecode : Obligations.FrameEncodingInvertsDecode := fun _ _ _ _ hd =>
  ⟨enc_of_decodeFrame_eq_ok hd, fun _ _ hd' =>
    (enc_of_decodeFrame_eq_ok hd').symm.trans (enc_of_decodeFrame_eq_ok hd)⟩

/-! ### Flipped bits -/

theorem flipBit_ne {b : Nat} (hb : b < 8) (x : Byte) : flipBit b x ≠ x := by
  intro h
  have hbit : (flipBit b x).getLsbD b = x.getLsbD b := by rw [h]
  simp [flipBit, hb] at hbit

@[simp] theorem flipBit_flipBit (b : Nat) (x : Byte) : flipBit b (flipBit b x) = x := by
  simp [flipBit]

theorem modify_flipBit_ne {w : Bytes} {j b : Nat} (hj : j < w.length) (hb : b < 8) : w.modify j (flipBit b) ≠ w := by
  intro h
  obtain ⟨l, x, r, rfl, -, hmod⟩ := List.exists_of_modify (flipBit b) hj
  rw [hmod] at h
  exact flipBit_ne hb x (List.cons.inj (List.append_cancel_left h)).1

/-- A flipped bit flips the same bit of the XOR. -/
theorem xorAll_modify_flipBit {w : Bytes} {j : Nat} (b : Nat) (hj : j < w.length) :
    xorAll (w.modify j (flipBit b)) = flipBit b (xorAll w) := by
  obtain ⟨l, x, r, rfl, -, hmod⟩ := List.exists_of_modify (flipBit b) hj
  simp only [hmod, xorAll_append, xorAll, flipBit]
  ac_rfl

theorem length_modify_enc (c : Config) (f : Frame) (j : Nat) (g : Byte → Byte) :
    ((enc c f).modify j g).length = f.length := (List.length_modify ..).trans (length_enc c f)

theorem take_modify_of_le {w : Bytes} {j n : Nat} (g : Byte → Byte) (hn : n ≤ j) :
    (w.modify j g).take n = w.take n := by
  rw [List.take_modify, List.modify_eq_self (by simp; omega)]

/-- A flip in the header makes another header. -/
theorem headerOf_modify_flipBit_ne {w : Bytes} {h h' : Marker} {j b : Nat} (hj : j < 2) (hb : b < 8)
    (hh : headerOf w = some h) (hh' : headerOf (w.modify j (flipBit b)) = some h') : h' ≠ h := by
  rintro rfl
  have hlt : j < (w.take 2).length := by simpa [take_two_of_headerOf hh] using hj
  apply modify_flipBit_ne hlt hb
  rw [← List.take_modify, take_two_of_headerOf hh, take_two_of_headerOf hh']

/-- R97 after the header: the header and the length stay, and the XOR is no longer zero. -/
theorem decodeFrame_flipBit_payload {c : Config} {f : Frame} {j b : Nat} (hne : c.sensMarker ≠ c.cmdMarker)
    (hj : j < (enc c f).length) (hb : b < 8) (h2 : 2 ≤ j) :
    decodeFrame c ((enc c f).modify j (flipBit b)) = .err .checksumMismatch := by
  have hlen := length_modify_enc c f j (flipBit b)
  have hh : headerOf ((enc c f).modify j (flipBit b)) = some (f.marker c) :=
    (headerOf_eq_of_take_two (take_modify_of_le _ h2)).trans (headerOf_enc c f)
  apply decodeFrame_of_xor_ne_zero hh (frameLength_marker hne f) hlen.ge
  rw [List.take_of_length_le hlen.le, xorAll_modify_flipBit b hj, xorAll_enc]
  exact flipBit_ne hb 0x00

/-- Settles O44: after the header the checksum notices the flip; in it the new header, which is not that of the frame's
own variant, decides. -/
theorem singleBitErrors : Obligations.SingleBitErrors := by
  intro c f j b hne hj hb
  refine ⟨decodeFrame_flipBit_payload hne hj hb, fun hj2 h hh => ?_⟩
  have hlen := length_modify_enc c f j (flipBit b)
  have hother : h ≠ f.marker c := headerOf_modify_flipBit_ne hj2 hb (headerOf_enc c f) hh
  refine ⟨fun hs hc => decodeFrame_of_unknown hh ((frameLength_eq_none_iff c h).mpr ⟨hs, hc⟩), ?_, ?_⟩
  · intro hs
    cases f with
    | sensor i t v => exact absurd hs hother
    | command a k =>
      have hlt : ((enc c (.command a k)).modify j (flipBit b)).length < 9 := hlen.trans_lt (by decide : 5 < 9)
      exact ⟨⟨a, k, rfl⟩, decodeFrame_of_incomplete hh ((frameLength_eq_nine_iff c h).mpr hs) hlt⟩
  · intro hc
    cases f with
    | sensor i t v =>
      have hle : 5 ≤ ((enc c (.sensor i t v)).modify j (flipBit b)).length := hlen.ge.trans' (by decide : 5 ≤ 9)
      exact ⟨⟨i, t, v, rfl⟩, (decodeFrame_take hh ((frameLength_eq_five_iff hne h).mpr hc) hle).symm⟩
    | command a k => exact absurd hc hother

/-- Settles O45: two flips of one bit cancel in the XOR, and the bytes up to the second flip show that the window is
another one. -/
theorem undetectedErrors : Obligations.UndetectedErrors := by
  intro c f hne
  refine ⟨fun j k b h2 hjk hk hb => ?_, fun w hlen hhead hx => ?_⟩
  · generalize hw : ((enc c f).modify j (flipBit b)).modify k (flipBit b) = w
    have hx : xorAll w = 0x00 := by
      rw [← hw, xorAll_modify_flipBit b (by simpa using hk), xorAll_modify_flipBit b (hjk.trans hk), xorAll_enc,
        flipBit_flipBit]
    have hlen : w.length = (enc c f).length := by simp [← hw]
    have hhead : w.take 2 = (enc c f).take 2 := by
      rw [← hw, take_modify_of_le _ (h2.trans hjk.le), take_modify_of_le _ h2]
    obtain ⟨f', hf', hd⟩ := decodeFrame_of_take_two hne f hlen hhead hx
    refine ⟨hx, f', ?_, hd⟩
    rintro rfl
    have htake : ((enc c f').take k).modify j (flipBit b) = (enc c f').take k := by
      rw [← List.take_modify, ← take_modify_of_le (flipBit b) le_rfl, hw, hf']
    exact modify_flipBit_ne (by simp [hjk, hjk.trans hk]) hb htake
  · obtain ⟨f', hf', hd⟩ := decodeFrame_of_take_two hne f hlen hhead hx
    exact ⟨f', hd, hf'⟩

/-! ### The codec requests -/

/-- Settles O26: the sensor frame's body in bytes, and its checksum as one XOR after another. -/
theorem encodeSensorBuildsFrame : Obligations.EncodeSensorBuildsFrame := by
  intro s i t v3 v2 v1 v0
  rw [← u32be_eq_append]
  refine ⟨rfl, ?_⟩
  rw [exec, execEncodeSensor, enc_sensor_u32be, chk_cons]
  rfl

/-- Settles O27: the same for the command frame. -/
theorem encodeCommandBuildsFrame : Obligations.EncodeCommandBuildsFrame := by
  intro s a k
  refine ⟨rfl, ?_⟩
  rw [exec, execEncodeCommand, enc, frameBody, chk_cons]
  rfl

/-- Settles O33: each of these requests answers and does nothing else. -/
theorem codecWritesOnlyResponse : Obligations.CodecWritesOnlyResponse := by
  intro s i hi
  suffices hanswer : ∃ r, exec i s = .next (s.answer r) ∧ r.len = s.buf.length ∧
      ((∃ a b v, i = .encodeSensor a b v) ∨ (∃ a b, i = .encodeCommand a b) ∨ (∃ w, i = .checksum w) →
        r.status = .ok) ∧
      ∀ w, i = .decode w → ∃ d, r.result = some d ∧ r.status = d.status by
    obtain ⟨r, hexec, hr⟩ := hanswer
    exact ⟨s.answer r, hexec, rfl, rfl, fun _ => rfl, rfl, rfl, rfl, r, rfl, hr⟩
  obtain ⟨a, b, v, rfl⟩ | ⟨a, b, rfl⟩ | ⟨w, rfl⟩ | ⟨w, rfl⟩ | ⟨record, rfl⟩ := hi
  · exact ⟨_, rfl, rfl, fun _ => rfl, nofun⟩
  · exact ⟨_, rfl, rfl, fun _ => rfl, nofun⟩
  · exact ⟨_, rfl, rfl, by simp, fun _ _ => ⟨_, rfl, rfl⟩⟩
  · exact ⟨_, rfl, rfl, fun _ => rfl, nofun⟩
  · exact ⟨_, rfl, rfl, by simp, nofun⟩

/-! ### The bytes a response carries -/

@[simp] theorem newResponses_answer (s : State) (r : Response) : newResponses s (s.answer r) = [r] := by
  simp [newResponses]

/-- A scan's response carries no bytes, and a held scan gives none. -/
theorem performScan_answers_no_bytes {r : ScanResult} {s t : State} (h : performScan r s = .next t) {bs : Bytes} :
    (newResponses s t).map Response.bytes ≠ [some bs] := by
  obtain ⟨-, e⟩ | ⟨-, c, -, e⟩ | ⟨-, c, -, e⟩ := performScan_cases r s
  all_goals
    cases e.symm.trans h
    simp [newResponses]

/-- Only the two encoders answer bytes, and these are the frame's encoding (R86, R88). -/
theorem exec_answers_bytes {i : Instr} {s t : State} {bs : Bytes} (h : exec i s = .next t)
    (hbs : (newResponses s t).map Response.bytes = [some bs]) :
    (∃ a b v, i = .encodeSensor a b v ∧ bs = enc s.cfg (.sensor a b v)) ∨
    (∃ a b, i = .encodeCommand a b ∧ bs = enc s.cfg (.command a b)) := by
  cases i
  case encodeSensor a b v =>
    cases h
    exact .inl ⟨a, b, v, rfl, by simpa using hbs.symm⟩
  case encodeCommand a b =>
    cases h
    exact .inr ⟨a, b, rfl, by simpa using hbs.symm⟩
  case step | poll | sensorFrame | commandFrame => exact absurd hbs (performScan_answers_no_bytes h)
  case append b =>
    cases hf : s.cfg.cap.isFull s.buf.length with
    | true =>
      cases (exec_append_of_full b hf).symm.trans h
      simp at hbs
    | false =>
      cases (exec_append_of_room b hf).symm.trans h
      simp [newResponses] at hbs
  all_goals
    cases h
    simp [newResponses] at hbs

/-- Settles O41: whatever bytes a response carries are the encoding of a frame. -/
theorem encoderOutputsAreValid : Obligations.EncoderOutputsAreValid := by
  intro s t i bs h hbs
  have valid (f : Frame) : headerOf (enc s.cfg f) = some (f.marker s.cfg) ∧ (enc s.cfg f).length = f.length ∧
      verify (enc s.cfg f) f.length = true := ⟨headerOf_enc _ f, length_enc _ f, verify_enc _ f⟩
  obtain ⟨a, b, v, rfl, rfl⟩ | ⟨a, b, rfl, rfl⟩ := exec_answers_bytes h hbs
  · exact ⟨xorAll_enc _ _, fun _ => valid (.sensor a b v), nofun⟩
  · exact ⟨xorAll_enc _ _, nofun, fun _ => valid (.command a b)⟩

end Sys2Proof.Machine
end

section
/-! PROOFS. The statements about 41_reassembler.md: APPEND and RESET (R102, R104), the boundary scanner (R106 to R108,
R113), POLL's loop (R110 to R118), and what a stream of bytes gives however it is delivered (R119, R120). -/

namespace Sys2Proof.Machine

/-! ### APPEND and RESET -/

/-- Settles O18: the two branches of APPEND. -/
theorem appendAddsOneByte : Obligations.AppendAddsOneByte := by
  intro s b
  refine ⟨rfl, fun n hcap hlen => ?_, fun hroom => ?_⟩
  · exact exec_append_of_full b (by simp [Capacity.isFull, hcap, hlen])
  · have hf : s.cfg.cap.isFull s.buf.length = false := by
      obtain hcap | ⟨n, hcap, hlen⟩ := hroom <;> simp [Capacity.isFull, *]
    rw [exec_append_of_room b hf, bufAppend, List.length_append]
    rfl

/-- Settles O19: RESET has one branch. -/
theorem resetClearsBuffer : Obligations.ResetClearsBuffer := fun _ => ⟨rfl, rfl⟩

/-! ### What a scan that is performed leaves -/

theorem exec_step (s : State) : exec .step s = performScan (scanStep s.cfg s.buf) s := rfl

theorem exec_poll (s : State) : exec .poll s = performScan (scanPoll s.cfg s.buf) s := rfl

/-- A scan that leaves the buffer and has no event is only answered. -/
theorem performScan_of_unchanged {r : ScanResult} {s : State} (hb : r.buf = s.buf) (he : r.events = []) :
    performScan r s = .next { s with
      requests := s.requests.tail
      responses := s.responses ++
        [{ status := .ok, len := s.buf.length, outcome := some r.outcome, events := some [] }] } := by
  rw [performScan_silent s he]
  simp [State.applyScan, State.withBuf, State.emit, State.answer, ScanResult.response, hb, he]

/-- A consumer that accepts every offer lets every scan take effect, and is the same after it. -/
theorem performScan_of_willing (r : ScanResult) {s : State} (hc : s.consumer = ⟨[], true⟩) :
    performScan r s = .next (s.applyScan r) := by
  by_cases he : r.events = []
  · exact performScan_silent s he
  · have hoffer : s.consumer.offer = (true, s.consumer) := by rw [hc]; rfl
    exact performScan_accepted he hoffer

theorem newResponses_of_append {s t : State} {rs : List Response} (h : t.responses = s.responses ++ rs) :
    newResponses s t = rs := by
  rw [newResponses, h, List.drop_left]

theorem newEvents_of_append {s t : State} {evs : List Event} (h : t.events = s.events ++ evs) :
    newEvents s t = evs := by
  rw [newEvents, h, List.drop_left]

/-- A scan takes effect, or is held; either way the consumer may have moved on (10_state.md R34). -/
theorem performScan_eq_next {r : ScanResult} {s t : State} (h : performScan r s = .next t) :
    ∃ c, t = (s.withConsumer c).applyScan r ∨ t = s.withConsumer c := by
  obtain ⟨-, e⟩ | ⟨-, c, -, e⟩ | ⟨-, c, -, e⟩ := performScan_cases r s <;> cases e.symm.trans h
  · exact ⟨s.consumer, .inl rfl⟩
  · exact ⟨c, .inl rfl⟩
  · exact ⟨c, .inr rfl⟩

/-- A response shows that the scan took effect. -/
theorem performScan_of_answered {r : ScanResult} {s t : State} {resp : Response} (h : performScan r s = .next t)
    (hresp : newResponses s t = [resp]) : ∃ c, t = (s.withConsumer c).applyScan r ∧ resp = r.response := by
  obtain ⟨c, rfl | rfl⟩ := performScan_eq_next h
  · exact ⟨c, rfl, (List.singleton_injective ((newResponses_of_append rfl).symm.trans hresp)).symm⟩
  · simp [newResponses] at hresp

/-! ### The boundary scanner -/

theorem scanStep_of_length_lt_two (c : Config) {buf : Bytes} (hlt : buf.length < 2) :
    scanStep c buf = ⟨.stopNeedData, buf, []⟩ := by
  match buf, hlt with
  | [], _ | [_], _ => rfl

section
variable {c : Config} {buf : Bytes} {h : Marker} (hh : headerOf buf = some h)
include hh

theorem scanStep_of_unknown (hl : c.frameLength h = none) :
    scanStep c buf = ⟨.resync, buf.drop 1, [.error .unknownHeader]⟩ := by
  simp [scanStep, hh, hl, bufDrop]

variable {L : Nat} (hl : c.frameLength h = some L)
include hl

theorem scanStep_of_incomplete (hlt : buf.length < L) : scanStep c buf = ⟨.stopWait, buf, []⟩ := by
  simp [scanStep, hh, hl, hlt]

theorem scanStep_of_decode_ok {f : Frame} {n : Nat} (hle : L ≤ buf.length) (hd : decodeFrame c buf = .ok f n) :
    scanStep c buf = ⟨.yield, buf.drop L, [.frame f]⟩ := by
  simp [scanStep, hh, hl, hle.not_gt, memRead, bufDrop, decodeFrame_take hh hl hle, hd]

theorem scanStep_of_decode_err {e : DecodeError} (hle : L ≤ buf.length) (hd : decodeFrame c buf = .err e) :
    scanStep c buf = ⟨.resync, buf.drop 1, [.error .checksumMismatch]⟩ := by
  simp [scanStep, hh, hl, hle.not_gt, memRead, bufDrop, decodeFrame_take hh hl hle, hd]

end

theorem exec_step_of_unchanged {s : State} {o : StepOutcome} (hscan : scanStep s.cfg s.buf = ⟨o, s.buf, []⟩) :
    exec .step s = .next { s with
      requests := s.requests.tail
      responses := s.responses ++
        [{ status := .ok, len := s.buf.length, outcome := some o, events := some [] }] } := by
  rw [exec_step, performScan_of_unchanged (by rw [hscan]) (by rw [hscan]), hscan]

section
variable {s : State} {c' : Consumer} (hoffer : s.consumer.offer = (true, c'))
include hoffer

/-- An accepted STEP with one event. -/
theorem exec_step_of_event {o : StepOutcome} {buf : Bytes} {ev : Event}
    (hscan : scanStep s.cfg s.buf = ⟨o, buf, [ev]⟩) :
    exec .step s = .next { s with
      buf := buf
      requests := s.requests.tail
      consumer := c'
      events := s.events ++ [ev]
      responses := s.responses ++
        [{ status := .ok, len := buf.length, outcome := some o, events := some [ev] }] } := by
  rw [exec_step, hscan, performScan_accepted (by simp) hoffer]
  rfl

/-- An accepted resynchronization: one byte dropped (R108, R109). -/
theorem exec_step_of_resync {ev : Event} (hscan : scanStep s.cfg s.buf = ⟨.resync, s.buf.drop 1, [ev]⟩) :
    exec .step s = .next { s with
      buf := s.buf.tail
      requests := s.requests.tail
      consumer := c'
      events := s.events ++ [ev]
      responses := s.responses ++
        [{ status := .ok, len := s.buf.length - 1, outcome := some .resync, events := some [ev] }] } := by
  rw [exec_step_of_event hoffer hscan, List.drop_one, List.length_tail]

end

/-- Settles O21: one branch of the scanner after another; a whole window does what `decode` says of it. -/
theorem stepScansOnce : Obligations.StepScansOnce := by
  intro s m0 m1 rest c'
  have header {m0 m1 rest} (hb : s.buf = m0 :: m1 :: rest) : headerOf s.buf = some ⟨m0, m1⟩ := by rw [hb]; rfl
  refine ⟨rfl, fun hlt => ?_, fun hb hs hlt => ?_, fun hb hne hc hlt => ?_, ?_, ?_, fun hb hs hc hoffer => ?_⟩
  · exact exec_step_of_unchanged (scanStep_of_length_lt_two _ hlt)
  · exact exec_step_of_unchanged (scanStep_of_incomplete (header hb) ((frameLength_eq_nine_iff _ _).mpr hs) hlt)
  · exact exec_step_of_unchanged (scanStep_of_incomplete (header hb) ((frameLength_eq_five_iff hne _).mpr hc) hlt)
  · intro i t v3 v2 v1 v0 k tail hb hs hoffer
    have hl := (frameLength_eq_nine_iff s.cfg _).mpr hs
    have hle : 9 ≤ s.buf.length := by simp [hb]
    have hd := decodeFrame_sensor i t v3 v2 v1 v0 k tail hs
    rw [← hb, chk_cons, u32be_eq_append] at hd
    exact ⟨fun hk => exec_step_of_event hoffer
        (by rw [scanStep_of_decode_ok (header hb) hl hle (hd.trans (if_pos hk)), hb]; rfl),
      fun hk => exec_step_of_resync hoffer (scanStep_of_decode_err (header hb) hl hle (hd.trans (if_neg hk)))⟩
  · intro a t k tail hb hne hc hoffer
    have hl := (frameLength_eq_five_iff hne _).mpr hc
    have hle : 5 ≤ s.buf.length := by simp [hb]
    have hd := decodeFrame_command a t k tail hne hc
    rw [← hb, chk_cons] at hd
    exact ⟨fun hk => exec_step_of_event hoffer
        (by rw [scanStep_of_decode_ok (header hb) hl hle (hd.trans (if_pos hk)), hb]; rfl),
      fun hk => exec_step_of_resync hoffer (scanStep_of_decode_err (header hb) hl hle (hd.trans (if_neg hk)))⟩
  · exact exec_step_of_resync hoffer
      (scanStep_of_unknown (header hb) ((frameLength_eq_none_iff _ _).mpr ⟨hs, hc⟩))

/-- Settles O46: the buffer a STEP leaves, read off for each outcome. -/
theorem stepMakesProgress : Obligations.StepMakesProgress := by
  intro s t r hexec hr
  obtain ⟨c, rfl, rfl⟩ := performScan_of_answered hexec hr
  simp only [scanResponse_outcome, applyScan_buf, Option.some.injEq]
  obtain ⟨-, e⟩ | ⟨h, hh, ⟨-, e⟩ | ⟨L, hl, ⟨-, e⟩ | ⟨hle, ⟨f, n, -, e⟩ | ⟨er, -, e⟩⟩⟩⟩ := scanStep_cases s.cfg s.buf <;>
    rw [e]
  · simp
  · obtain ⟨rest, hb⟩ := headerOf_eq_some hh
    simp [hb]
  · simp
  · have hpos := frameLength_pos hl
    exact ⟨fun _ => ⟨h, L, hh, hl, by simp [hle], by omega⟩, by simp, by simp⟩
  · obtain ⟨rest, hb⟩ := headerOf_eq_some hh
    simp [hb]

/-! ### When the scanner stops -/

theorem two_le_length_of_headerOf {w : Bytes} {h : Marker} (hh : headerOf w = some h) : 2 ≤ w.length := by
  obtain ⟨rest, rfl⟩ := headerOf_eq_some hh
  simp

theorem headerOf_of_length_lt_two {w : Bytes} (hlt : w.length < 2) : headerOf w = none := by
  match w, hlt with
  | [], _ | [_], _ => rfl

theorem quiescent_iff (c : Config) (buf : Bytes) :
    quiescent c buf = true ↔
      buf.length < 2 ∨ ∃ h L, headerOf buf = some h ∧ c.frameLength h = some L ∧ buf.length < L := by
  cases hh : headerOf buf with
  | none => simp [quiescent, hh, headerOf_eq_none hh]
  | some h =>
    have hlen := two_le_length_of_headerOf hh
    cases hl : c.frameLength h <;> simp [quiescent, hh, hl, hlen.not_gt]

/-- R116: quiescence is what stops a STEP. -/
theorem scanStep_stops_eq_quiescent (c : Config) (buf : Bytes) :
    (scanStep c buf).outcome.stops = quiescent c buf := by
  obtain ⟨hlt, e⟩ | ⟨h, hh, ⟨hl, e⟩ | ⟨L, hl, ⟨hlt, e⟩ | ⟨hle, ⟨f, n, -, e⟩ | ⟨er, -, e⟩⟩⟩⟩ := scanStep_cases c buf
  · simp [e, StepOutcome.stops, quiescent, headerOf_of_length_lt_two hlt]
  · simp [e, StepOutcome.stops, quiescent, hh, hl]
  · simp [e, StepOutcome.stops, quiescent, hh, hl, hlt]
  · simp [e, StepOutcome.stops, quiescent, hh, hl, hle]
  · simp [e, StepOutcome.stops, quiescent, hh, hl, hle]

theorem two_le_length_of_not_stops {c : Config} {buf : Bytes} (h : (scanStep c buf).outcome.stops = false) :
    2 ≤ buf.length := by
  by_contra hlt
  rw [scanStep_of_length_lt_two c (not_le.mp hlt)] at h
  cases h

/-! ### POLL's loop, one STEP body at a time -/

theorem scanPoll_of_stops {c : Config} {buf : Bytes} (h : (scanStep c buf).outcome.stops = true) :
    scanPoll c buf = scanStep c buf := scanLoop_succ_stop h

theorem scanPoll_buf_of_stops {c : Config} {buf : Bytes} (h : (scanStep c buf).outcome.stops = true) :
    (scanPoll c buf).buf = buf := by
  rw [scanPoll_of_stops h, (scanStep_of_stops h).1]

theorem scanPoll_of_not_stops {c : Config} {buf : Bytes} (h : (scanStep c buf).outcome.stops = false) :
    scanPoll c buf =
      { scanPoll c (scanStep c buf).buf with
        events := (scanStep c buf).events ++ (scanPoll c (scanStep c buf).buf).events } := by
  have hlt := (scanStep_of_not_stops h).1
  rw [scanPoll, scanLoop_succ_go h, scanPoll, scanLoop_fuel c buf.length _ _ hlt (Nat.lt_succ_self _)]

/-- Induction along the STEP bodies of a POLL: each one that does not stop shortens the buffer (R113). -/
theorem scan_induction (c : Config) {motive : Bytes → Prop}
    (stop : ∀ buf, (scanStep c buf).outcome.stops = true → motive buf)
    (go : ∀ buf, (scanStep c buf).outcome.stops = false → motive (scanStep c buf).buf → motive buf)
    (buf : Bytes) : motive buf := by
  induction hn : buf.length using Nat.strong_induction_on generalizing buf with
  | _ n ih =>
    subst hn
    cases hs : (scanStep c buf).outcome.stops with
    | true => exact stop buf hs
    | false => exact go buf hs (ih _ (scanStep_of_not_stops hs).1 _ rfl)

theorem scanPoll_stops (c : Config) (buf : Bytes) : (scanPoll c buf).outcome.stops = true := by
  induction buf using scan_induction c with
  | stop buf hs => rwa [scanPoll_of_stops hs]
  | go buf hs ih => rwa [scanPoll_of_not_stops hs]

/-- The buffer a POLL leaves is one on which a STEP stops. -/
theorem scanStep_stops_scanPoll_buf (c : Config) (buf : Bytes) :
    (scanStep c (scanPoll c buf).buf).outcome.stops = true := by
  induction buf using scan_induction c with
  | stop buf hs => rwa [scanPoll_of_stops hs, (scanStep_of_stops hs).1]
  | go buf hs ih => rwa [scanPoll_of_not_stops hs]

theorem scanPoll_events_eq_nil {c : Config} {buf : Bytes} :
    (scanPoll c buf).events = [] ↔ (scanStep c buf).outcome.stops = true := by
  cases hs : (scanStep c buf).outcome.stops with
  | true => simp [scanPoll_of_stops hs, (scanStep_of_stops hs).2]
  | false =>
    obtain ⟨ev, he⟩ := (scanStep_of_not_stops hs).2
    simp [scanPoll_of_not_stops hs, he]

/-- Settles O22: the unfolding of the loop at its first STEP body, and the two ways its scan takes effect. -/
theorem pollRepeatsStep : Obligations.PollRepeatsStep := by
  intro s c'
  refine ⟨rfl, fun buf => ⟨scanPoll_of_stops, scanPoll_of_not_stops⟩, scanPoll_stops _ _, fun he => ?_,
    fun he hoffer => ?_⟩
  · have hs := scanPoll_events_eq_nil.mp he
    exact performScan_of_unchanged (scanPoll_buf_of_stops hs) he
  · rw [exec_poll, performScan_accepted he hoffer]
    rfl

/-! ### After a POLL -/

/-- Settles O47: quiescence is what stops a STEP, and the last body of a POLL is one that stops. -/
theorem pollLeavesQuiescent : Obligations.PollLeavesQuiescent := by
  intro s t
  refine ⟨by rw [scanStep_stops_eq_quiescent, quiescent_iff], ?_⟩
  rintro hexec ⟨r, hr⟩
  obtain ⟨c, rfl, -⟩ := performScan_of_answered hexec hr
  simp only [applyScan_buf, applyScan_cfg, withConsumer_cfg]
  have hquiet := scanStep_stops_scanPoll_buf s.cfg s.buf
  rw [scanStep_stops_eq_quiescent] at hquiet
  refine ⟨hquiet, ?_⟩
  obtain hlt | ⟨h, L, hh, hl, hlt⟩ := (quiescent_iff _ _).mp hquiet
  · exact ⟨by omega, .inl (by omega)⟩
  · have hlen := two_le_length_of_headerOf hh
    obtain ⟨rfl, rfl⟩ | ⟨-, rfl, rfl⟩ := frameLength_eq_some hl
    · exact ⟨by omega, .inr (.inl ⟨hh, hlen, by omega⟩)⟩
    · exact ⟨by omega, .inr (.inr ⟨hh, hlen, by omega⟩)⟩

/-- Settles O50: on the buffer a POLL leaves, POLL is one STEP body that stops. -/
theorem pollIsIdempotent : Obligations.PollIsIdempotent := by
  intro s t r hexec hr
  obtain ⟨c, rfl, -⟩ := performScan_of_answered hexec hr
  generalize ht : (s.withConsumer c).applyScan (scanPoll s.cfg s.buf) = t
  have hs : (scanStep t.cfg t.buf).outcome.stops = true := by
    rw [← ht]
    exact scanStep_stops_scanPoll_buf s.cfg s.buf
  have he := scanPoll_events_eq_nil.mpr hs
  exact ⟨_, _, performScan_of_unchanged (scanPoll_buf_of_stops hs) he, newResponses_of_append rfl, rfl, rfl, rfl⟩

/-! ### A full buffer -/

/-- R115: a buffer of nine bytes or more never waits, for no frame is longer. -/
theorem scanStep_not_stops_of_nine_le (c : Config) {buf : Bytes} (h9 : 9 ≤ buf.length) :
    (scanStep c buf).outcome.stops = false := by
  rw [scanStep_stops_eq_quiescent, Bool.eq_false_iff, ne_eq, quiescent_iff]
  rintro (hlt | ⟨h, L, -, hl, hlt⟩)
  · omega
  · have hmax := (frameLength_pos hl).2
    omega

theorem yield_or_resync_of_not_stops {o : StepOutcome} (h : o.stops = false) : o = .yield ∨ o = .resync := by
  cases o <;> simp_all [StepOutcome.stops]

theorem scanPoll_buf_length_lt {c : Config} {buf : Bytes} (h : (scanStep c buf).outcome.stops = false) :
    (scanPoll c buf).buf.length < buf.length := by
  rw [scanPoll_of_not_stops h]
  exact (scanPoll_buf_suffix c _).length_le.trans_lt (scanStep_of_not_stops h).1

/-- Settles O48: a legal capacity is at least nine bytes, so a full buffer is not quiescent. -/
theorem fullBufferDrains : Obligations.FullBufferDrains := by
  rintro s n b c' hlegal hcap rfl hoffer
  have hgo := scanStep_not_stops_of_nine_le s.cfg (legal_cap hlegal hcap)
  have hstep : (scanStep s.cfg s.buf).events ≠ [] := by simp [scanStep_events_eq_nil, hgo]
  have hpoll : (scanPoll s.cfg s.buf).events ≠ [] := by simp [scanPoll_events_eq_nil, hgo]
  have hlt := scanPoll_buf_length_lt hgo
  constructor
  · refine ⟨_, _, performScan_accepted hstep hoffer, newResponses_of_append rfl, ?_⟩
    simpa using yield_or_resync_of_not_stops hgo
  · have hroom : s.cfg.cap.isFull (scanPoll s.cfg s.buf).buf.length = false := by
      simp [hcap, Capacity.isFull, hlt.ne]
    exact ⟨_, _, _, performScan_accepted hpoll hoffer, hlt, exec_append_of_room b hroom,
      newResponses_of_append rfl, rfl, rfl⟩

/-! ### The frames a scan emits -/

/-- R117: the frame a STEP body emits is the whole window at the buffer's head. -/
theorem enc_infix_of_mem_scanStep {c : Config} {buf : Bytes} {f : Frame}
    (hf : Event.frame f ∈ (scanStep c buf).events) : enc c f <:+: buf := by
  obtain ⟨-, e⟩ | ⟨h, -, ⟨-, e⟩ | ⟨L, -, ⟨-, e⟩ | ⟨-, ⟨f', n, hd, e⟩ | ⟨er, -, e⟩⟩⟩⟩ := scanStep_cases c buf <;>
    simp only [e, List.mem_cons, List.not_mem_nil, or_false, Event.frame.injEq, reduceCtorEq] at hf
  subst hf
  rw [enc_of_decodeFrame_eq_ok hd]
  exact ((List.take_prefix _ _).trans (List.take_prefix _ _)).isInfix

theorem enc_infix_of_mem_scanPoll {c : Config} {buf : Bytes} {f : Frame}
    (hf : Event.frame f ∈ (scanPoll c buf).events) : enc c f <:+: buf := by
  induction buf using scan_induction c with
  | stop buf hs =>
    rw [scanPoll_of_stops hs] at hf
    exact enc_infix_of_mem_scanStep hf
  | go buf hs ih =>
    rw [scanPoll_of_not_stops hs] at hf
    obtain hf | hf := List.mem_append.mp hf
    · exact enc_infix_of_mem_scanStep hf
    · exact (ih hf).trans (scanStep_buf_suffix c buf).isInfix

/-- The new events of a scan are its own: all of them, or none when it is held. -/
theorem mem_events_of_mem_newEvents {r : ScanResult} {s t : State} (h : performScan r s = .next t) {ev : Event}
    (hev : ev ∈ newEvents s t) : ev ∈ r.events := by
  obtain ⟨c, rfl | rfl⟩ := performScan_eq_next h
  · rwa [newEvents_of_append (evs := r.events) rfl] at hev
  · simp [newEvents] at hev

/-- Settles O49: an emitted frame's window stood in the buffer, and every encoding has zero XOR. -/
theorem onlyValidFramesEmitted : Obligations.OnlyValidFramesEmitted := by
  intro s t i f hi hexec hf
  refine ⟨?_, xorAll_enc s.cfg f⟩
  obtain rfl | rfl := hi
  · exact enc_infix_of_mem_scanStep (mem_events_of_mem_newEvents hexec hf)
  · exact enc_infix_of_mem_scanPoll (mem_events_of_mem_newEvents hexec hf)

end Sys2Proof.Machine
end

section
/-! PROOFS. The statements of 41_reassembler.md about runs of requests: a POLL as a run of STEPs (R112, R114), streams
in any chunking (R119), and bytes with no marker (R120). -/

namespace Sys2Proof.Machine

/-! ### A POLL as a run of STEPs -/

/-- Each STEP body that does not stop takes at least one byte of the two it needs, and emits one event (R114). -/
theorem scanPoll_events_length_lt (c : Config) (buf : Bytes) :
    (scanPoll c buf).events.length < max buf.length 1 := by
  induction buf using scan_induction c with
  | stop buf hs => simp [scanPoll_of_stops hs, (scanStep_of_stops hs).2]
  | go buf hs ih =>
    obtain ⟨hlt, ev, he⟩ := scanStep_of_not_stops hs
    have htwo := two_le_length_of_not_stops hs
    rw [scanPoll_of_not_stops hs, he, List.length_append, List.length_singleton]
    omega

/-- The STEPs that do what one POLL does on `s` lead to `t`: those that go on answer `going`, the one that stops answers
`last`. -/
structure StepsOfPoll (s t : State) (going : List Response) (last : Response) : Prop where
  run : runRequests (List.replicate (going.length + 1) .step) s = .next t
  buf : t.buf = (scanPoll s.cfg s.buf).buf
  events : t.events = s.events ++ (scanPoll s.cfg s.buf).events
  cfg : t.cfg = s.cfg
  responses : t.responses = s.responses ++ (going ++ [last])
  going_outcome : ∀ r ∈ going, ∃ o, r.outcome = some o ∧ o.stops = false
  last_outcome : last.outcome = some (scanPoll s.cfg s.buf).outcome
  going_length : going.length = (scanPoll s.cfg s.buf).events.length

/-- A STEP that stops is all of its POLL. -/
theorem StepsOfPoll.of_stops {s : State} (hc : s.consumer = ⟨[], true⟩)
    (hs : (scanStep s.cfg s.buf).outcome.stops = true) :
    StepsOfPoll s (s.applyScan (scanStep s.cfg s.buf)) [] (scanStep s.cfg s.buf).response where
  run := by
    rw [List.length_nil, List.replicate_succ]
    exact runRequests_cons_eq_next_iff.mpr ⟨_, performScan_of_willing _ hc, rfl⟩
  buf := by rw [scanPoll_of_stops hs, applyScan_buf]
  events := by rw [scanPoll_of_stops hs, applyScan_events]
  cfg := rfl
  responses := rfl
  going_outcome := List.forall_mem_nil _
  last_outcome := by rw [scanPoll_of_stops hs, scanResponse_outcome]
  going_length := by simp [scanPoll_of_stops hs, (scanStep_of_stops hs).2]

/-- A STEP that goes on stands before the STEPs of the POLL on what it leaves. -/
theorem StepsOfPoll.cons {s t : State} {going : List Response} {last : Response} (hc : s.consumer = ⟨[], true⟩)
    (hs : (scanStep s.cfg s.buf).outcome.stops = false)
    (h : StepsOfPoll (s.applyScan (scanStep s.cfg s.buf)) t going last) :
    StepsOfPoll s t ((scanStep s.cfg s.buf).response :: going) last where
  run := by
    rw [List.length_cons, List.replicate_succ]
    exact runRequests_cons_eq_next_iff.mpr ⟨_, performScan_of_willing _ hc, h.run⟩
  buf := by rw [scanPoll_of_not_stops hs, h.buf, applyScan_cfg, applyScan_buf]
  events := by rw [scanPoll_of_not_stops hs, h.events, applyScan_cfg, applyScan_buf, applyScan_events, List.append_assoc]
  cfg := h.cfg
  responses := by rw [h.responses, applyScan_responses, List.append_assoc]; rfl
  going_outcome := by
    rw [List.forall_mem_cons]
    exact ⟨⟨_, rfl, hs⟩, h.going_outcome⟩
  last_outcome := by rw [scanPoll_of_not_stops hs, h.last_outcome, applyScan_cfg, applyScan_buf]
  going_length := by
    obtain ⟨ev, he⟩ := (scanStep_of_not_stops hs).2
    rw [scanPoll_of_not_stops hs, List.length_cons, h.going_length, he]
    simp

theorem exists_stepsOfPoll {s : State} (hc : s.consumer = ⟨[], true⟩) :
    ∃ t going last, StepsOfPoll s t going last := by
  generalize hcfg : s.cfg = c
  generalize hbuf : s.buf = buf
  induction buf using scan_induction c generalizing s with
  | stop buf hs =>
    subst hcfg hbuf
    exact ⟨_, _, _, .of_stops hc hs⟩
  | go buf hs ih =>
    subst hcfg hbuf
    obtain ⟨t, going, last, h⟩ := ih (s := s.applyScan (scanStep s.cfg s.buf)) hc rfl rfl
    exact ⟨t, _, last, h.cons hc hs⟩

/-- Of the responses of those STEPs exactly the last one stops. -/
theorem StepsOfPoll.outcome_stops_iff {s t : State} {going : List Response} {last r : Response} {j : Nat}
    (h : StepsOfPoll s t going last) (hj : (going ++ [last])[j]? = some r) :
    ∃ o, r.outcome = some o ∧ (o.stops = true ↔ j + 1 = going.length + 1) := by
  obtain hlt | hle := lt_or_ge j going.length
  · rw [List.getElem?_append_left hlt] at hj
    obtain ⟨o, ho, hgo⟩ := h.going_outcome r (List.mem_of_getElem? hj)
    exact ⟨o, ho, iff_of_false (by simp [hgo]) (by omega)⟩
  · rw [List.getElem?_append_right hle, List.getElem?_singleton] at hj
    obtain ⟨hzero, hr⟩ := Option.ite_none_right_eq_some.mp hj
    cases hr
    exact ⟨_, h.last_outcome, iff_of_true (scanPoll_stops _ _) (by omega)⟩

/-- Settles O23: the STEPs of a POLL are one more than its events, and those are fewer than the bytes. -/
theorem pollIsBoundedRunOfSteps : Obligations.PollIsBoundedRunOfSteps := by
  intro s hc
  obtain ⟨t, going, last, h⟩ := exists_stepsOfPoll hc
  have hbound := scanPoll_events_length_lt s.cfg s.buf
  have hlen := h.going_length
  have hnew : newResponses s t = going ++ [last] := newResponses_of_append h.responses
  have hevents : newEvents s (s.applyScan (scanPoll s.cfg s.buf)) = (scanPoll s.cfg s.buf).events :=
    newEvents_of_append rfl
  refine ⟨going.length + 1, t, _, _, by omega, by omega, h.run, performScan_of_willing _ hc, h.buf, h.events, h.cfg,
    by simp [hnew], fun j r hj => ?_, newResponses_of_append rfl, ?_, ?_⟩
  · rw [hnew] at hj
    exact h.outcome_stops_iff hj
  · simp [hnew, h.last_outcome]
  · rw [hevents]
    omega

/-! ### Streams in any chunking -/

/-- Whatever bytes follow, scanning `stream` first emits `evs` and then scans `buf` in its place: the events already
emitted and the bytes still held stand for the stream (R119). -/
def ScansTo (c : Config) (stream : Bytes) (evs : List Event) (buf : Bytes) : Prop :=
  ∀ more, scanPoll c (stream ++ more) =
    { scanPoll c (buf ++ more) with events := evs ++ (scanPoll c (buf ++ more)).events }

theorem ScansTo.refl (c : Config) (buf : Bytes) : ScansTo c buf [] buf := fun _ => rfl

theorem ScansTo.trans {c : Config} {a b d : Bytes} {evs evs' : List Event} (h : ScansTo c a evs b)
    (h' : ScansTo c b evs' d) : ScansTo c a (evs ++ evs') d := by
  intro more
  rw [h more, h' more, List.append_assoc]

theorem ScansTo.append {c : Config} {a b : Bytes} {evs : List Event} (h : ScansTo c a evs b) (x : Bytes) :
    ScansTo c (a ++ x) evs (b ++ x) := by
  intro more
  rw [List.append_assoc, List.append_assoc]
  exact h (x ++ more)

/-- One STEP body decides on bytes already present. -/
theorem scansTo_scanStep (c : Config) (buf : Bytes) : ScansTo c buf (scanStep c buf).events (scanStep c buf).buf := by
  cases hs : (scanStep c buf).outcome.stops with
  | true =>
    rw [(scanStep_of_stops hs).1, (scanStep_of_stops hs).2]
    exact .refl c buf
  | false =>
    intro more
    have happend := scanStep_append (x := more) hs
    rw [scanPoll_of_not_stops (by rw [happend]; exact hs), happend]

theorem scansTo_scanPoll (c : Config) (buf : Bytes) : ScansTo c buf (scanPoll c buf).events (scanPoll c buf).buf := by
  induction buf using scan_induction c with
  | stop buf hs =>
    rw [scanPoll_of_stops hs]
    exact scansTo_scanStep c buf
  | go buf hs ih =>
    rw [scanPoll_of_not_stops hs]
    exact (scansTo_scanStep c buf).trans ih

theorem exec_append_cfg_events {b : Byte} {s t : State} (h : exec (.append b) s = .next t) :
    t.cfg = s.cfg ∧ t.events = s.events := by
  cases hf : s.cfg.cap.isFull s.buf.length with
  | true =>
    cases (exec_append_of_full b hf).symm.trans h
    exact ⟨rfl, rfl⟩
  | false =>
    cases (exec_append_of_room b hf).symm.trans h
    exact ⟨rfl, rfl⟩

/-- One request's part of the stream: what it accepts and what it emits. -/
theorem exec_scansTo {i : Instr} {s t : State} (hi : i.channel = .request) (hreset : i ≠ .reset)
    (h : exec i s = .next t) :
    t.cfg = s.cfg ∧ ∃ evs, t.events = s.events ++ evs ∧ ScansTo s.cfg (s.buf ++ acceptedBy i s) evs t.buf := by
  by_cases happend : ∃ b, i = .append b
  · obtain ⟨b, rfl⟩ := happend
    obtain ⟨hcfg, hevents⟩ := exec_append_cfg_events h
    rw [← exec_append_buf h]
    exact ⟨hcfg, [], by rw [hevents, List.append_nil], .refl _ _⟩
  · rw [not_exists] at happend
    rw [acceptedBy_of_ne_append s happend, List.append_nil]
    obtain ⟨r, rfl, -⟩ | ⟨b, hb, -⟩ | ⟨hr, -⟩ | ⟨r, hr, hscan⟩ := exec_cases h
    · exact ⟨rfl, [], (List.append_nil _).symm, .refl _ _⟩
    · exact absurd hb (happend b)
    · exact absurd hr hreset
    · obtain ⟨c, rfl | rfl⟩ := performScan_eq_next hscan
      · refine ⟨rfl, r.events, rfl, ?_⟩
        obtain ⟨-, rfl⟩ | ⟨-, rfl⟩ | ⟨hwire, -⟩ := hr
        · exact scansTo_scanStep _ _
        · exact scansTo_scanPoll _ _
        · cases hi.symm.trans hwire
      · exact ⟨rfl, [], (List.append_nil _).symm, .refl _ _⟩

theorem runRequests_scansTo {is : List Instr} {s t : State} (hi : ∀ i ∈ is, i.channel = .request ∧ i ≠ .reset)
    (h : runRequests is s = .next t) :
    t.cfg = s.cfg ∧ ∃ evs, t.events = s.events ++ evs ∧ ScansTo s.cfg (s.buf ++ acceptedStream is s) evs t.buf := by
  induction is generalizing s with
  | nil =>
    cases h
    rw [acceptedStream, List.append_nil]
    exact ⟨rfl, [], (List.append_nil _).symm, .refl _ _⟩
  | cons i is ih =>
    obtain ⟨⟨hreq, hreset⟩, his⟩ := List.forall_mem_cons.mp hi
    obtain ⟨u, hexec, hrun⟩ := runRequests_cons_eq_next_iff.mp h
    obtain ⟨hcfg, evs, hevs, hscan⟩ := exec_scansTo hreq hreset hexec
    obtain ⟨hcfg', evs', hevs', hscan'⟩ := ih his hrun
    rw [hcfg] at hscan'
    rw [acceptedStream_cons is hexec, ← List.append_assoc]
    exact ⟨hcfg'.trans hcfg, evs ++ evs', by rw [hevs', hevs, List.append_assoc], (hscan.append _).trans hscan'⟩

/-- Settles O52: the events emitted and the buffer stand for the accepted stream, and a POLL scans the buffer. -/
theorem streamDeterminism : Obligations.StreamDeterminism := by
  intro is s t hempty hi hrun
  obtain ⟨hcfg, evs, hevs, hscan⟩ := runRequests_scansTo hi hrun
  have hall := hscan []
  simp only [hempty, List.nil_append, List.append_nil] at hall
  rw [newEvents_of_append hevs, hall]
  refine ⟨List.prefix_append _ _, hevs, fun u r hexec hr => ?_⟩
  obtain ⟨c, rfl, -⟩ := performScan_of_answered hexec hr
  refine ⟨newEvents_of_append ?_, by simp [hcfg]⟩
  simp [hevs, hcfg]

/-! ### Bytes with no marker -/

/-- R120: with no marker at its head, a buffer of two bytes or more loses one. -/
theorem scanStep_of_markerFree {c : Config} {m0 m1 : Byte} {rest : Bytes}
    (h : markerFree c (m0 :: m1 :: rest) = true) :
    scanStep c (m0 :: m1 :: rest) = ⟨.resync, m1 :: rest, [.error .unknownHeader]⟩ ∧
      markerFree c (m1 :: rest) = true := by
  rw [markerFree, Bool.and_eq_true, Option.isNone_iff_eq_none] at h
  exact ⟨scanStep_of_unknown rfl h.1, h.2⟩

theorem scanPoll_of_markerFree {c : Config} {bs : Bytes} (h : markerFree c bs = true) :
    scanPoll c bs =
      ⟨.stopNeedData, bs.drop (bs.length - 1), List.replicate (bs.length - 1) (.error .unknownHeader)⟩ := by
  match bs, h with
  | [], _ | [_], _ => rfl
  | m0 :: m1 :: rest, h =>
    obtain ⟨hscan, htail⟩ := scanStep_of_markerFree h
    rw [scanPoll_of_not_stops (by rw [hscan]; rfl), hscan, scanPoll_of_markerFree htail]
    rfl

theorem markerFree_drop {c : Config} {bs : Bytes} (h : markerFree c bs = true) (j : Nat) :
    markerFree c (bs.drop j) = true := by
  match bs, j, h with
  | bs, 0, h => exact h
  | [], _ + 1, _ | [_], _ + 1, _ => simp [markerFree]
  | m0 :: m1 :: rest, j + 1, h => exact markerFree_drop (scanStep_of_markerFree h).2 j

/-- At every position before the last the scanner resynchronizes by one byte. -/
theorem scanStep_drop_of_markerFree {c : Config} {bs : Bytes} (h : markerFree c bs = true) {j : Nat}
    (hj : j < bs.length - 1) :
    (scanStep c (bs.drop j)).outcome = .resync ∧ (scanStep c (bs.drop j)).buf = bs.drop (j + 1) := by
  have hfree := markerFree_drop h j
  have hlen : 2 ≤ (bs.drop j).length := by rw [List.length_drop]; omega
  rw [← List.tail_drop]
  match bs.drop j, hfree, hlen with
  | m0 :: m1 :: rest, hfree, _ => simp [(scanStep_of_markerFree hfree).1]

theorem isFull_of_admits {cap : Capacity} {n m : Nat} (hlt : n < m) (h : cap.admits m = true) :
    cap.isFull n = false := by
  cases cap with
  | inf => rfl
  | finite k =>
    have hle : m ≤ k := by simpa [Capacity.admits] using h
    exact beq_false_of_ne (hlt.trans_le hle).ne

/-- APPENDs of bytes that fit put them all at the tail and change nothing else that a scan reads or writes. -/
theorem runRequests_appends {s : State} {bs : Bytes} (hfit : s.cfg.cap.admits (s.buf.length + bs.length) = true) :
    ∃ t, runRequests (appends bs) s = .next t ∧ t.buf = s.buf ++ bs ∧ t.cfg = s.cfg ∧ t.consumer = s.consumer ∧
      t.events = s.events := by
  induction bs generalizing s with
  | nil => exact ⟨s, rfl, (List.append_nil _).symm, rfl, rfl, rfl⟩
  | cons b bs ih =>
    have hroom : s.cfg.cap.isFull s.buf.length = false := isFull_of_admits (by simp) hfit
    have hrest : s.cfg.cap.admits ((bufAppend s.buf b).length + bs.length) = true := by
      simpa [bufAppend, Nat.add_assoc, Nat.add_comm 1] using hfit
    obtain ⟨t, hrun, hbuf, hcfg, hconsumer, hevents⟩ :=
      ih (s := (s.withBuf (bufAppend s.buf b)).answer { status := .ok, len := (bufAppend s.buf b).length }) hrest
    exact ⟨t, runRequests_cons_eq_next_iff.mpr ⟨_, exec_append_of_room b hroom, hrun⟩, by simp [hbuf, bufAppend],
      hcfg, hconsumer, hevents⟩

/-- Settles O53: the APPENDs put the bytes into the buffer, and each STEP body but the last drops one. -/
theorem markerFreeBytesResync : Obligations.MarkerFreeBytesResync := by
  intro s bs hempty hfit hfree hc
  obtain ⟨t, hrun, hbuf, hcfg, hconsumer, hevents⟩ := runRequests_appends (s := s) (bs := bs) (by simpa [hempty])
  have hbuf : t.buf = bs := by rw [hbuf, hempty, List.nil_append]
  have hpoll : scanPoll t.cfg t.buf =
      ⟨.stopNeedData, bs.drop (bs.length - 1), List.replicate (bs.length - 1) (.error .unknownHeader)⟩ := by
    rw [hcfg, hbuf, scanPoll_of_markerFree hfree]
  refine ⟨t, _, hrun, hbuf, performScan_of_willing _ (hconsumer.trans hc), newEvents_of_append ?_, ?_,
    fun j hj => scanStep_drop_of_markerFree hfree hj, ?_⟩
  · rw [applyScan_events, hevents, hpoll]
  · rw [applyScan_buf, hpoll]
  · rw [scanStep_of_length_lt_two _ (by rw [List.length_drop]; omega)]

end Sys2Proof.Machine
end

section
/-! PROOFS. The statements about 70_reset_and_hazards.md: the legal configurations (R147), creation (R146), and RESET as
a return to creation (R148). -/

namespace Sys2Proof.Machine

/-! ### The legal configurations -/

theorem legal_iff (c : Config) :
    c.legal = true ↔ c.sensMarker ≠ c.cmdMarker ∧ (c.cap = .inf ∨ ∃ n, c.cap = .finite n ∧ 9 ≤ n) := by
  cases hcap : c.cap <;> simp [Config.legal, hcap]

theorem marker_ne_iff (m m' : Marker) : m ≠ m' ↔ m.m0 ≠ m'.m0 ∨ m.m1 ≠ m'.m1 := by
  cases m
  cases m'
  rw [ne_eq, Marker.mk.injEq, not_and_or]

/-- Settles O1: the check's two conditions, and the inequality of two pairs. -/
theorem legalConfigurations : Obligations.LegalConfigurations := fun c => ⟨legal_iff c, marker_ne_iff _ _⟩

/-! ### Creation -/

theorem create_of_illegal {c : Config} (h : c.legal = false) : create c = .fault .illegalConfiguration :=
  if_neg (by simp [h])

theorem create_of_legal {c : Config} (h : c.legal = true) : create c = .next (State.fresh c) :=
  if_pos h

theorem eq_fresh_of_create {c : Config} {f : State} (h : create c = .next f) : f = State.fresh c := by
  cases hl : c.legal with
  | true =>
    cases (create_of_legal hl).symm.trans h
    rfl
  | false => cases (create_of_illegal hl).symm.trans h

/-! ### What an instruction does is fixed by the configuration and the buffer -/

/-- An instruction writes a buffer and answers, or it scans, the same in every state with one configuration and one
buffer (10_state.md R24). -/
theorem exec_answers_or_scans (i : Instr) (c : Config) (buf : Bytes) :
    (∃ buf' r, ∀ s : State, s.cfg = c → s.buf = buf → exec i s = .next ((s.withBuf buf').answer r)) ∨
    (∃ r, ∀ s : State, s.cfg = c → s.buf = buf → exec i s = performScan r s) := by
  cases i
  case append b =>
    cases hf : c.cap.isFull buf.length with
    | true =>
      refine .inl ⟨buf, { status := .bufferFull, len := buf.length }, ?_⟩
      rintro s rfl rfl
      exact exec_append_of_full b hf
    | false =>
      refine .inl ⟨bufAppend buf b, { status := .ok, len := (bufAppend buf b).length }, ?_⟩
      rintro s rfl rfl
      exact exec_append_of_room b hf
  case reset => exact .inl ⟨[], { status := .ok, len := 0 }, fun _ _ _ => rfl⟩
  case encodeSensor a y v =>
    exact .inl ⟨buf, { status := .ok, len := buf.length, bytes := some (enc c (.sensor a y v)) },
      fun | _, rfl, rfl => rfl⟩
  case encodeCommand a y =>
    exact .inl ⟨buf, { status := .ok, len := buf.length, bytes := some (enc c (.command a y)) },
      fun | _, rfl, rfl => rfl⟩
  case decode w =>
    exact .inl ⟨buf, { status := (decodeFrame c w).status, len := buf.length, result := some (decodeFrame c w) },
      fun | _, rfl, rfl => rfl⟩
  case checksum data =>
    exact .inl ⟨buf, { status := .ok, len := buf.length, chk := some (chk data) }, fun | _, rfl, rfl => rfl⟩
  case reservedRequest => exact .inl ⟨buf, { status := .illegalRequest, len := buf.length }, fun | _, rfl, rfl => rfl⟩
  case step => exact .inr ⟨scanStep c buf, fun | _, rfl, rfl => rfl⟩
  case poll => exact .inr ⟨scanPoll c buf, fun | _, rfl, rfl => rfl⟩
  case sensorFrame a y v k => exact .inr ⟨windowScan c buf (.sensor a y v) k, fun | _, rfl, rfl => rfl⟩
  case commandFrame a y k => exact .inr ⟨windowScan c buf (.command a y) k, fun | _, rfl, rfl => rfl⟩

/-- With a consumer that accepts every offer, every instruction is performed: it gives its one response. -/
theorem exec_of_willing (i : Instr) {s : State} (hc : s.consumer = ⟨[], true⟩) :
    ∃ t r, exec i s = .next t ∧ t.responses = s.responses ++ [r] := by
  obtain ⟨buf, r, hexec⟩ | ⟨r, hexec⟩ := exec_answers_or_scans i s.cfg s.buf
  · exact ⟨_, r, hexec s rfl rfl, rfl⟩
  · exact ⟨_, r.response, (hexec s rfl rfl).trans (performScan_of_willing r hc), rfl⟩

/-- Settles O2: the two branches of creation; the consumer of a new instance accepts every offer (log 6). -/
theorem creationChecksConfiguration : Obligations.CreationChecksConfiguration := by
  intro c
  refine ⟨create_of_illegal, fun hlegal => ⟨State.fresh c, create_of_legal hlegal, rfl, rfl, fun i _ => ?_⟩⟩
  obtain ⟨t, r, hexec, hresp⟩ := exec_of_willing i (fresh_consumer c)
  exact ⟨t, hexec, by rw [hresp]; rfl⟩

/-! ### RESET and creation cannot be told apart -/

/-- The move from `s` to `t` and the one from `s'` to `t'` show the same: they leave the same configuration, buffer and
consumer, and they add the same responses and events. -/
def ShowSame (s t s' t' : State) : Prop :=
  t.buf = t'.buf ∧ t.cfg = t'.cfg ∧ t.consumer = t'.consumer ∧
    newResponses s t = newResponses s' t' ∧ newEvents s t = newEvents s' t'

section
variable {s s' : State}

theorem showSame_answer (buf : Bytes) (r : Response) (hcfg : s.cfg = s'.cfg) (hc : s.consumer = s'.consumer) :
    ShowSame s ((s.withBuf buf).answer r) s' ((s'.withBuf buf).answer r) :=
  ⟨rfl, hcfg, hc, by simp [newResponses], by simp [newEvents]⟩

theorem showSame_applyScan (c : Consumer) (r : ScanResult) (hcfg : s.cfg = s'.cfg) :
    ShowSame s ((s.withConsumer c).applyScan r) s' ((s'.withConsumer c).applyScan r) :=
  ⟨rfl, hcfg, rfl, by simp [newResponses], by simp [newEvents]⟩

theorem showSame_withConsumer (c : Consumer) (hcfg : s.cfg = s'.cfg) (hbuf : s.buf = s'.buf) :
    ShowSame s (s.withConsumer c) s' (s'.withConsumer c) :=
  ⟨hbuf, hcfg, rfl, by simp [newResponses], by simp [newEvents]⟩

/-- One scan for two instances: silent, accepted by both consumers or by neither. -/
theorem performScan_showSame (r : ScanResult) (hcfg : s.cfg = s'.cfg) (hbuf : s.buf = s'.buf)
    (hc : s.consumer = s'.consumer) :
    ∃ t t', performScan r s = .next t ∧ performScan r s' = .next t' ∧ ShowSame s t s' t' := by
  by_cases he : r.events = []
  · have hs' : s'.withConsumer s.consumer = s' := by rw [hc]; rfl
    have hsame := showSame_applyScan s.consumer r hcfg
    rw [hs'] at hsame
    exact ⟨_, _, performScan_silent s he, performScan_silent s' he, hsame⟩
  · rcases ho : s.consumer.offer with ⟨accepted, c⟩
    have ho' := hc ▸ ho
    cases accepted with
    | true => exact ⟨_, _, performScan_accepted he ho, performScan_accepted he ho', showSame_applyScan c r hcfg⟩
    | false => exact ⟨_, _, performScan_held he ho, performScan_held he ho', showSame_withConsumer c hcfg hbuf⟩

/-- Instances that agree on configuration, buffer and consumer do the same, whatever they answered or emitted before
(10_state.md R24). -/
theorem exec_showSame (i : Instr) (hcfg : s.cfg = s'.cfg) (hbuf : s.buf = s'.buf) (hc : s.consumer = s'.consumer) :
    ∃ t t', exec i s = .next t ∧ exec i s' = .next t' ∧ ShowSame s t s' t' := by
  obtain ⟨buf, r, hexec⟩ | ⟨r, hexec⟩ := exec_answers_or_scans i s.cfg s.buf
  · exact ⟨_, _, hexec s rfl rfl, hexec s' hcfg.symm hbuf.symm, showSame_answer buf r hcfg hc⟩
  · rw [hexec s rfl rfl, hexec s' hcfg.symm hbuf.symm]
    exact performScan_showSame r hcfg hbuf hc

end

/-- Settles O20: RESET leaves the new instance's buffer and configuration, and nothing else but the consumer is read. -/
theorem resetMatchesCreation : Obligations.ResetMatchesCreation := by
  intro s t f i hreset hcreate
  obtain rfl := eq_fresh_of_create hcreate
  cases hreset
  exact ⟨rfl, rfl, exec_showSame i rfl rfl rfl⟩

end Sys2Proof.Machine
end

section
/-! PROOFS. The invariant of an FCSR block: the configuration is fixed (70_reset_and_hazards.md R150), legal, and the
buffer stays within its capacity (10_state.md R21). -/

namespace Sys2Proof.Machine

theorem exec_cfg {i : Instr} {s t : State} (h : exec i s = .next t) : t.cfg = s.cfg := by
  obtain ⟨r, rfl, -⟩ | ⟨b, -, -, rfl⟩ | ⟨-, rfl⟩ | ⟨r, -, hscan⟩ := exec_cases h
  · rfl
  · rfl
  · rfl
  · obtain ⟨c, rfl | rfl⟩ := performScan_eq_next hscan <;> rfl

/-- Settles O5: every way an instruction goes on keeps the configuration. -/
theorem configurationIsFixed : Obligations.ConfigurationIsFixed := fun _ _ _ => exec_cfg

/-- Only APPEND lengthens the buffer, and only below the capacity. -/
theorem exec_wf {i : Instr} {s t : State} (hwf : Memory.wf s.cfg.cap s.buf = true) (h : exec i s = .next t) :
    Memory.wf t.cfg.cap t.buf = true := by
  rw [exec_cfg h]
  by_cases hi : ∃ b, i = .append b
  · obtain ⟨b, rfl⟩ := hi
    rw [exec_append_buf h, acceptedBy_append]
    cases hf : s.cfg.cap.isFull s.buf.length with
    | true => simpa using hwf
    | false => exact wf_append b hwf hf
  · rw [not_exists] at hi
    exact wf_of_length_le hwf (exec_buf_suffix hi h).length_le

theorem exec_inv {i : Instr} {s t : State} (hs : s.Inv) (h : exec i s = .next t) : t.Inv := by
  obtain ⟨hlegal, hwf⟩ := hs
  exact ⟨by rwa [exec_cfg h], exec_wf hwf h⟩

/-- A step is the execution of the oldest pending record. -/
theorem step_eq_next {s t : State} (h : step s = .next t) :
    ∃ record rs, s.requests = record :: rs ∧ exec (decodeRequest record) s = .next t := by
  cases hr : s.requests with
  | nil => simp [step, hr] at h
  | cons record rs => exact ⟨record, rs, rfl, by rwa [step_of_pending hr] at h⟩

/-- Settles O4: every instruction keeps the invariant, and a step performs one. -/
theorem stepKeepsInvariant : Obligations.StepKeepsInvariant := by
  intro s t hs hstep
  obtain ⟨record, rs, -, hexec⟩ := step_eq_next hstep
  exact exec_inv hs hexec

theorem legal_initial : Config.initial.legal = true :=
  (legal_iff _).mpr ⟨openCmdMarker_ne, .inl rfl⟩

/-- Settles O3: the reset configuration is legal whatever its open command marker is. -/
theorem resetInstanceIsCreated : Obligations.ResetInstanceIsCreated :=
  ⟨create_of_legal legal_initial, legal_initial, reset_wf⟩

end Sys2Proof.Machine
end

section
/-! PROOFS. The statements about 30_encoding.md on decoding and encoding: each inverts the other on both channels (R60
to R66, R70, R71), and the numeric codes (60_exceptions.md R128, 41_reassembler.md R105, R72). -/

namespace Sys2Proof

/-! ### Request records -/

/-- The count byte of DECODE and CHECKSUM is exact for at most 255 bytes (10_state.md R28). -/
theorem toNat_count {n : Nat} (h : n ≤ 255) : (BitVec.ofNat 8 n).toNat = n := by
  rw [BitVec.toNat_ofNat]
  omega

theorem decodeRequest_encode (c : Config) {i : Instr} (hi : i.channel = .request) (hwf : i.wellFormed = true) :
    decodeRequest (encode c i) = i := by
  cases i with
  | append | step | poll | reset | encodeCommand => rfl
  | encodeSensor i t v => exact congrArg (Instr.encodeSensor i t) (u32be_bigEndian v)
  | decode w => exact if_pos (toNat_count (of_decide_eq_true hwf)).symm
  | checksum data => exact if_pos (toNat_count (of_decide_eq_true hwf)).symm
  | reservedRequest record => exact (Machine.decodeRequest_eq_reservedRequest_iff record).mpr hwf
  | sensorFrame | commandFrame => cases hi

/-- A count byte that matches is the one the encoder writes. -/
theorem count_of_length_eq {w : Bytes} {n : Byte} (h : w.length = n.toNat) :
    w.length ≤ 255 ∧ BitVec.ofNat 8 w.length = n := by
  have hn := n.isLt
  exact ⟨by omega, by rw [h, BitVec.ofNat_toNat, BitVec.setWidth_eq]⟩

/-- Settles O9: one answer of the record decoder after another. -/
theorem encodeInvertsRequestDecode : Obligations.EncodeInvertsRequestDecode := by
  intro c r
  obtain ⟨b, rfl, e⟩ | ⟨rfl, e⟩ | ⟨rfl, e⟩ | ⟨rfl, e⟩ | ⟨i, t, v3, v2, v1, v0, rfl, e⟩ | ⟨a, k, rfl, e⟩ |
    ⟨n, w, rfl, hw, e⟩ | ⟨n, data, rfl, hdata, e⟩ | ⟨hdefect, e⟩ := decodeRequest_cases r <;> rw [e]
  · exact ⟨rfl, rfl, rfl⟩
  · exact ⟨rfl, rfl, rfl⟩
  · exact ⟨rfl, rfl, rfl⟩
  · exact ⟨rfl, rfl, rfl⟩
  · exact ⟨rfl, rfl, congrArg ([0x05, i, t] ++ ·) (bigEndian_u32be v3 v2 v1 v0)⟩
  · exact ⟨rfl, rfl, rfl⟩
  · obtain ⟨hle, hn⟩ := count_of_length_eq hw
    exact ⟨decide_eq_true hle, rfl, by rw [encode, hn]; rfl⟩
  · obtain ⟨hle, hn⟩ := count_of_length_eq hdata
    exact ⟨decide_eq_true hle, rfl, by rw [encode, hn]; rfl⟩
  · exact ⟨hdefect, rfl, rfl⟩

/-! ### Windows of the stream -/

/-- The two bytes of the marker select the row, whatever follows the window (R59, R66). -/
theorem decodeWire_encode_append {c : Config} {i : Instr} (hne : c.sensMarker ≠ c.cmdMarker) (hi : i.channel = .wire)
    (rest : Bytes) : decodeWire c (encode c i ++ rest) = .ok i := by
  cases i with
  | sensorFrame i t v k => simp [encode, bigEndian, decodeWire, u32be_bigEndian]
  | commandFrame a t k => simp [encode, decodeWire, hne.symm]
  | _ => cases hi

/-- Settles O8: the record decoder on the request channel, the window decoder on the wire. -/
theorem decodeInvertsEncode : Obligations.DecodeInvertsEncode := by
  intro c i hne hwf
  refine ⟨?_, decodeWire_encode_append hne⟩
  cases hi : i.channel with
  | request => exact congrArg Except.ok (decodeRequest_encode c hi hwf)
  | wire =>
    have hdecode := decodeWire_encode_append hne hi []
    rwa [List.append_nil] at hdecode

/-- Settles O10: one answer of the window decoder after another. -/
theorem encodeInvertsWireDecode : Obligations.EncodeInvertsWireDecode := by
  intro c w i hi
  obtain ⟨-, e⟩ | ⟨m0, m1, rest, rfl, ⟨-, e⟩ | ⟨L, -, -, e⟩ | ⟨hs, i', t, v3, v2, v1, v0, k, tail, rfl, e⟩ |
    ⟨-, hc, a, t, k, tail, rfl, e⟩⟩ := decodeWire_cases c w <;> cases e.symm.trans hi
  · exact ⟨rfl, tail, by rw [encode, ← hs, bigEndian_u32be]; rfl⟩
  · exact ⟨rfl, tail, by rw [encode, ← hc]; rfl⟩

/-! ### Frames as table words -/

/-- A marker as one number (20_memory.md R44). -/
theorem windowWord_marker (m : Marker) : BitVec.ofNat 16 (windowWord [m.m0, m.m1]) = m.word16 := by
  have hhigh := m.m0.isLt
  have hlow := m.m1.isLt
  have hor : m.m0.toNat <<< 8 + m.m1.toNat = m.m0.toNat <<< 8 ||| m.m1.toNat := Nat.shiftLeft_add_eq_or_of_lt hlow _
  have hmod : m.m0.toNat <<< 8 % 2 ^ 16 = m.m0.toNat <<< 8 := by rw [Nat.shiftLeft_eq]; omega
  apply BitVec.eq_of_toNat_eq
  rw [Marker.word16, BitVec.toNat_or, BitVec.toNat_shiftLeft, BitVec.toNat_setWidth_of_le (by decide),
    BitVec.toNat_setWidth_of_le (by decide), hmod, ← hor, BitVec.toNat_ofNat, Nat.shiftLeft_eq]
  simp only [windowWord, List.length_cons, List.length_nil]
  omega

/-- Bits 71:56 of the number of a sensor window are its header (R60). -/
theorem windowWord_sensorFrame_header (c : Config) (i t : Byte) (v : Word32) (k : Byte) :
    BitVec.ofNat 16 (windowWord (encode c (.sensorFrame i t v k)) >>> 56) = c.sensMarker.word16 := by
  have hsplit : encode c (.sensorFrame i t v k) =
      [c.sensMarker.m0, c.sensMarker.m1] ++ ([i, t] ++ bigEndian v ++ [k]) := rfl
  have hlow : windowWord ([i, t] ++ bigEndian v ++ [k]) < 2 ^ 56 := windowWord_lt _
  have hlen : 2 ^ (8 * ([i, t] ++ bigEndian v ++ [k]).length) = 2 ^ 56 := rfl
  rw [hsplit, Machine.windowWord_append, hlen, Nat.shiftRight_eq_div_pow, Nat.add_comm,
    Nat.add_mul_div_right _ _ (by decide), Nat.div_eq_of_lt hlow, Nat.zero_add, windowWord_marker]

/-- The low three bytes of the number of a command window are its operands. -/
theorem wordWindow_commandFrame (c : Config) (a t k : Byte) :
    wordWindow 3 (windowWord (encode c (.commandFrame a t k))) = [a, t, k] := by
  have hsplit : encode c (.commandFrame a t k) = [c.cmdMarker.m0, c.cmdMarker.m1] ++ [a, t, k] := rfl
  rw [hsplit, Machine.windowWord_append, List.length_cons, wordWindow_add _ _ _ _ (by simp)]
  exact wordWindow_of_length rfl

/-- Settles O58: the window the table reads from the number is the one that was numbered. -/
theorem tableWordsReadFrameNumbers : Obligations.TableWordsReadFrameNumbers := by
  intro i hi
  have hdecode := decodeWire_encode_append (c := Config.initial) Machine.openCmdMarker_ne hi []
  rw [List.append_nil] at hdecode
  refine decodeTableWord_wire ?_ hdecode
  cases i with
  | sensorFrame i t v k =>
    have hlen : (encode Config.initial (.sensorFrame i t v k)).length = 9 := rfl
    have hheader := windowWord_sensorFrame_header Config.initial i t v k
    rw [hlen]
    exact (tableRow_sensor hheader).trans (congrArg TableRow.wire (wordWindow_of_length hlen))
  | commandFrame a t k =>
    have hlen : (encode Config.initial (.commandFrame a t k)).length = 5 := rfl
    rw [hlen]
    exact (tableRow_command _).trans (by rw [wordWindow_commandFrame]; rfl)
  | _ => cases hi

/-! ### Written-out words and codes -/

/-- Settles O7: fixed bytes, read by the two decoders. -/
theorem specWordsDecode : Obligations.SpecWordsDecode := by
  refine ⟨rfl, rfl, ?_, ?_, ?_, ?_, ?_⟩ <;> decide

/-- Settles O56: the tables of codes, row by row. -/
theorem numericCodes : Obligations.NumericCodes := by
  refine ⟨rfl, rfl, fun _ _ _ => rfl, fun _ _ => rfl, fun r => ?_⟩
  cases r with
  | checksumMismatch => exact ⟨rfl, .inl rfl⟩
  | unknownHeader => exact ⟨rfl, .inr rfl⟩

end Sys2Proof
end

section
/-! PROOFS. The machine's step (10_state.md R27, R29), and the frame rows as what a STEP does with their window
(41_reassembler.md R106 to R108; log 1). -/

namespace Sys2Proof.Machine

/-! ### The oldest pending request -/

/-- Settles O13: the record at the head decodes to the request it encodes. -/
theorem stepPerformsOldestRequest : Obligations.StepPerformsOldestRequest := by
  intro s i rs hi hwf hs
  rw [step_of_pending hs, decodeRequest_encode s.cfg hi hwf]

/-- Settles O12: the empty record decodes to RESERVED_REQUEST (log 4). -/
theorem emptyRecordIsIllegal : Obligations.EmptyRecordIsIllegal := fun _ _ hs =>
  step_of_pending_reserved hs rfl

theorem performScan_goes_on (r : ScanResult) (s : State) : ∃ t, performScan r s = .next t := by
  obtain ⟨-, e⟩ | ⟨-, c, -, e⟩ | ⟨-, c, -, e⟩ := performScan_cases r s <;> exact ⟨_, e⟩

/-- Settles O17: an instruction answers, or scans and is answered or held. -/
theorem everyRequestGoesOn : Obligations.EveryRequestGoesOn := by
  intro i s
  obtain ⟨buf, r, hexec⟩ | ⟨r, hexec⟩ := exec_answers_or_scans i s.cfg s.buf
  · exact ⟨_, hexec s rfl rfl⟩
  · rw [hexec s rfl rfl]
    exact performScan_goes_on r s

/-- Settles O15: with a request pending, a step goes on. -/
theorem noRequestNoStep : Obligations.NoRequestNoStep := by
  intro s
  cases hs : s.requests with
  | nil => simp [step, hs]
  | cons record rs =>
    obtain ⟨t, ht⟩ := everyRequestGoesOn (decodeRequest record) s
    simp [step_of_pending hs, ht]

/-! ### Frame rows -/

/-- A row of the wire channel scans the window of some frame, and its bytes are that window. -/
theorem exists_window_of_wire {i : Instr} (hi : i.channel = .wire) :
    ∃ f k, (∀ c, encode c i = frameBody c f ++ [k]) ∧
      ∀ s, exec i s = performScan (windowScan s.cfg s.buf f k) s := by
  cases i with
  | sensorFrame i t v k => exact ⟨.sensor i t v, k, fun _ => rfl, fun _ => rfl⟩
  | commandFrame a t k => exact ⟨.command a t, k, fun _ => rfl, fun _ => rfl⟩
  | _ => cases hi

theorem windowScan_events_ne_nil (c : Config) (buf : Bytes) (f : Frame) (k : Byte) :
    (windowScan c buf f k).events ≠ [] := by
  obtain ⟨-, e⟩ | ⟨-, e⟩ := windowScan_cases c buf f k <;> simp [e]

theorem length_frameBody (c : Config) (f : Frame) (k : Byte) : (frameBody c f ++ [k]).length = f.length := by
  cases f <;> rfl

/-- A STEP body on a buffer that begins with a window does what the window's row does. -/
theorem scanStep_window {c : Config} (hne : c.sensMarker ≠ c.cmdMarker) (f : Frame) (k : Byte) (rest : Bytes) :
    scanStep c (frameBody c f ++ [k] ++ rest) = windowScan c (frameBody c f ++ [k] ++ rest) f k := by
  generalize hbuf : frameBody c f ++ [k] ++ rest = buf
  have hl := frameLength_marker hne f
  have hlen := length_frameBody c f k
  have hh : headerOf buf = some (f.marker c) := by
    rw [← hbuf]
    cases f <;> rfl
  have hle : f.length ≤ buf.length := by
    rw [← hbuf, List.length_append, hlen]
    exact Nat.le_add_right _ _
  have htake : buf.take f.length = frameBody c f ++ [k] := by rw [← hbuf, List.take_left' hlen]
  have hx := eq_chk_iff (frameBody c f) k
  rw [← htake] at hx
  obtain ⟨hk, e⟩ | ⟨hk, e⟩ := windowScan_cases c buf f k <;> rw [e]
  · obtain ⟨f', hf', hd⟩ := decodeFrame_of_xor_eq_zero hh hl hle (hx.mp hk)
    have henc : enc c f' = enc c f := by rw [hf', htake, enc, ← hk]
    rw [scanStep_of_decode_ok hh hl hle hd, enc_injective c henc]
  · exact scanStep_of_decode_err hh hl hle (decodeFrame_of_xor_ne_zero hh hl hle (mt hx.mpr hk))

/-- Settles O14: the pending record decodes to STEP, and its body is the row's scan. -/
theorem stepRunsFrameAtHead : Obligations.StepRunsFrameAtHead := by
  intro s i rest rs hne hi hbuf hs
  obtain ⟨f, k, hencode, hexec⟩ := exists_window_of_wire hi
  rw [hencode] at hbuf
  have hstep : step s = performScan (scanStep s.cfg s.buf) s := step_of_pending hs
  rw [hstep, hexec, hbuf, scanStep_window hne]

/-! ### Placed table words -/

section
variable {nbits w : Nat}

theorem withFetchWord_of_request {record : Bytes} (hrow : tableRow nbits w = .request record) (s : State) :
    s.withFetchWord nbits w = { s with requests := record :: s.requests } := by
  simp only [State.withFetchWord, hrow]

theorem withFetchWord_of_wire {window : Bytes} (hrow : tableRow nbits w = .wire window) (s : State) :
    s.withFetchWord nbits w =
      { s with buf := window ++ s.buf.drop window.length, requests := [0x02] :: s.requests } := by
  simp only [State.withFetchWord, hrow]

theorem decodeTableWord_of_request {record : Bytes} (hrow : tableRow nbits w = .request record) :
    decodeTableWord nbits w = some (decodeRequest record) := by
  simp only [decodeTableWord, hrow]

theorem decodeWire_of_decodeTableWord {window : Bytes} {i : Instr} (hrow : tableRow nbits w = .wire window)
    (hi : decodeTableWord nbits w = some i) : decodeWire Config.initial window = .ok i := by
  cases hdecode : decodeWire Config.initial window with
  | error e => simp [decodeTableWord, hrow, hdecode] at hi
  | ok i' => simpa [decodeTableWord, hrow, hdecode] using hi

end

/-- Settles O16: a placed record is decoded, and a placed window is scanned by the STEP placed with it. -/
theorem placedWordRunsNext : Obligations.PlacedWordRunsNext := by
  intro s nbits w i hcfg hi
  cases hrow : tableRow nbits w with
  | request record =>
    cases (decodeTableWord_of_request hrow).symm.trans hi
    rw [withFetchWord_of_request hrow]
    exact step_of_pending rfl
  | wire window =>
    obtain ⟨hwire, rest, hwindow⟩ := encodeInvertsWireDecode _ _ _ (decodeWire_of_decodeTableWord hrow hi)
    rw [withFetchWord_of_wire hrow]
    refine stepRunsFrameAtHead _ i (rest ++ s.buf.drop window.length) s.requests ?_ hwire ?_ rfl
    · rw [hcfg]
      exact openCmdMarker_ne
    · rw [hcfg, ← List.append_assoc, ← hwindow]

/-! ### What a frame row does when the consumer accepts -/

section
variable {s : State} {f : Frame} {k : Byte} {c' : Consumer} (hoffer : s.consumer.offer = (true, c'))
include hoffer

/-- A row whose window verifies is extracted (R107). -/
theorem performScan_windowScan_of_chk (hk : k = chk (frameBody s.cfg f)) :
    performScan (windowScan s.cfg s.buf f k) s = .next { s with
      buf := s.buf.drop f.length
      requests := s.requests.tail
      consumer := c'
      events := s.events ++ [.frame f]
      responses := s.responses ++
        [{ status := .ok, len := s.buf.length - f.length, outcome := some .yield, events := some [.frame f] }] } := by
  rw [performScan_accepted (windowScan_events_ne_nil _ _ _ _) hoffer, windowScan, if_pos hk, ← List.length_drop]
  rfl

/-- A row whose window does not verify loses one byte (R108). -/
theorem performScan_windowScan_of_ne_chk (hk : k ≠ chk (frameBody s.cfg f)) :
    performScan (windowScan s.cfg s.buf f k) s = .next { s with
      buf := s.buf.drop 1
      requests := s.requests.tail
      consumer := c'
      events := s.events ++ [.error .checksumMismatch]
      responses := s.responses ++
        [{ status := .ok, len := s.buf.length - 1, outcome := some .resync,
           events := some [.error .checksumMismatch] }] } := by
  rw [performScan_accepted (windowScan_events_ne_nil _ _ _ _) hoffer, windowScan, if_neg hk, ← List.length_drop]
  rfl

end

theorem frameBody_sensor_append (c : Config) (i t v3 v2 v1 v0 : Byte) :
    frameBody c (.sensor i t (v3 ++ v2 ++ v1 ++ v0)) =
      [c.sensMarker.m0, c.sensMarker.m1, i, t, v3, v2, v1, v0] := by
  rw [← u32be_eq_append, frameBody, bigEndian_u32be]
  rfl

/-- Settles O31: the checksum of the sensor frame's body as one XOR after another. -/
theorem sensorFrameRow : Obligations.SensorFrameRow := by
  intro s i t v3 v2 v1 v0 k c' hoffer
  have hchk : chk (frameBody s.cfg (.sensor i t (v3 ++ v2 ++ v1 ++ v0))) =
      s.cfg.sensMarker.m0 ^^^ s.cfg.sensMarker.m1 ^^^ i ^^^ t ^^^ v3 ^^^ v2 ^^^ v1 ^^^ v0 := by
    rw [frameBody_sensor_append, chk_cons]
    rfl
  rw [← hchk]
  exact ⟨performScan_windowScan_of_chk hoffer, performScan_windowScan_of_ne_chk hoffer⟩

/-- Settles O32: the same for the command frame. -/
theorem commandFrameRow : Obligations.CommandFrameRow := by
  intro s a t k c' hoffer
  have hchk : chk (frameBody s.cfg (.command a t)) =
      s.cfg.cmdMarker.m0 ^^^ s.cfg.cmdMarker.m1 ^^^ a ^^^ t := by
    rw [frameBody, chk_cons]
    rfl
  rw [← hchk]
  exact ⟨performScan_windowScan_of_chk hoffer, performScan_windowScan_of_ne_chk hoffer⟩

end Sys2Proof.Machine
end

section
/-! PROOFS. The statements about 10_state.md: what each request answers and leaves unchanged (R22 to R31), and APPENDS
(30_encoding.md R74). -/

namespace Sys2Proof.Machine

/-- Settles O30: an ill-formed record has one answer. -/
theorem reservedRequestAnswered : Obligations.ReservedRequestAnswered := fun _ _ => rfl

/-! ### The buffer, byte by byte -/

/-- A suffix reads as the whole buffer does, the removed bytes further on. -/
theorem exists_drop_of_suffix {a b : Bytes} (h : a <:+ b) :
    ∃ d, d ≤ b.length ∧ a.length = b.length - d ∧ ∀ k, readByte a k = readByte b (d + k) := by
  obtain ⟨removed, rfl⟩ := h
  refine ⟨removed.length, by simp, by simp, fun k => ?_⟩
  rw [readByte, readByte, List.getElem?_append_right (Nat.le_add_right _ _), Nat.add_sub_cancel_left]

/-- A STEP body removes nothing, one byte, or a whole window. -/
theorem scanStep_buf_eq_drop (c : Config) (buf : Bytes) :
    ∃ d, (d = 0 ∨ d = 1 ∨ d = 5 ∨ d = 9) ∧ d ≤ buf.length ∧ (scanStep c buf).buf = buf.drop d := by
  obtain ⟨-, e⟩ | ⟨h, hh, ⟨-, e⟩ | ⟨L, hl, ⟨-, e⟩ | ⟨hle, ⟨f, n, -, e⟩ | ⟨er, -, e⟩⟩⟩⟩ := scanStep_cases c buf <;>
    rw [e]
  · exact ⟨0, by simp, by simp, rfl⟩
  · exact ⟨1, by simp, (two_le_length_of_headerOf hh).trans' (by decide), rfl⟩
  · exact ⟨0, by simp, by simp, rfl⟩
  · obtain ⟨-, rfl⟩ | ⟨-, -, rfl⟩ := frameLength_eq_some hl
    · exact ⟨9, by simp, hle, rfl⟩
    · exact ⟨5, by simp, hle, rfl⟩
  · exact ⟨1, by simp, (two_le_length_of_headerOf hh).trans' (by decide), rfl⟩

theorem exec_step_buf_eq_drop {s t : State} (h : exec .step s = .next t) :
    ∃ d, (d = 0 ∨ d = 1 ∨ d = 5 ∨ d = 9) ∧ d ≤ s.buf.length ∧ t.buf = bufDrop s.buf d := by
  obtain e | e := performScan_buf h
  · rw [e]
    exact scanStep_buf_eq_drop s.cfg s.buf
  · exact ⟨0, .inl rfl, Nat.zero_le _, e⟩

/-- APPEND puts what it accepts at the tail and answers a status and a length; nothing else is in its response. -/
theorem exec_append_eq_next {b : Byte} {s t : State} (h : exec (.append b) s = .next t) :
    ∃ st n, t = (s.withBuf (s.buf ++ acceptedBy (.append b) s)).answer { status := st, len := n } := by
  rw [acceptedBy_append]
  cases hf : s.cfg.cap.isFull s.buf.length with
  | true =>
    cases (exec_append_of_full b hf).symm.trans h
    exact ⟨.bufferFull, s.buf.length, by simp [State.withBuf]⟩
  | false =>
    cases (exec_append_of_room b hf).symm.trans h
    exact ⟨.ok, (bufAppend s.buf b).length, rfl⟩

/-- Settles O34: APPEND writes at the tail only, every other request leaves a suffix of the buffer. -/
theorem bufferDiscipline : Obligations.BufferDiscipline := by
  intro s t
  refine ⟨fun b h => ?_, fun h => ?_, fun h => ?_, fun h => ?_⟩
  · obtain ⟨st, n, rfl⟩ := exec_append_eq_next h
    refine ⟨?_, fun a ha => List.getElem?_append_left ha, rfl, rfl⟩
    rw [answer_buf, withBuf_buf, acceptedBy_append]
    split <;> simp
  · obtain ⟨d, hd, hle, hbuf⟩ := exec_step_buf_eq_drop h
    rw [hbuf]
    exact ⟨d, hd, hle, List.length_drop, readByte_drop s.buf d⟩
  · exact exists_drop_of_suffix (exec_buf_suffix (by simp) h)
  · cases h
    exact ⟨rfl, rfl, rfl⟩

/-! ### Responses -/

/-- Settles O35: one way of `exec` after another; a scan is answered or held. -/
theorem oneResponsePerRequest : Obligations.OneResponsePerRequest := by
  intro i s t h
  obtain ⟨r, rfl, hlen, hevents, -⟩ | ⟨b, -, -, rfl⟩ | ⟨-, rfl⟩ | ⟨r, hr, hscan⟩ := exec_cases h
  · exact .inl ⟨r, rfl, rfl, hlen, by simp [hevents]⟩
  · exact .inl ⟨_, rfl, rfl, by simp, by simp⟩
  · exact .inl ⟨_, rfl, rfl, rfl, by simp⟩
  · obtain ⟨-, e⟩ | ⟨-, c, -, e⟩ | ⟨-, c, hoffer, e⟩ := performScan_cases r s <;> cases e.symm.trans hscan
    · exact .inl ⟨r.response, rfl, rfl, rfl, rfl⟩
    · exact .inl ⟨r.response, rfl, rfl, rfl, rfl⟩
    · have hscans : i = .step ∨ i = .poll ∨ i.channel = .wire := hr.imp And.left (Or.imp And.left And.left)
      exact .inr ⟨hscans, by rw [hoffer], by rw [hoffer]; rfl⟩

theorem scanStep_events_length_le_one (c : Config) (buf : Bytes) : (scanStep c buf).events.length ≤ 1 := by
  cases hs : (scanStep c buf).outcome.stops with
  | true => simp [(scanStep_of_stops hs).2]
  | false =>
    obtain ⟨ev, he⟩ := (scanStep_of_not_stops hs).2
    simp [he]

/-- Settles O36: the response of each request, field by field. -/
theorem responseFieldsPresent : Obligations.ResponseFieldsPresent := by
  intro i s t r hi h hresp
  have hr := newResponses_of_append hresp
  cases i
  case sensorFrame | commandFrame => cases hi
  case step =>
    obtain ⟨c, rfl, rfl⟩ := performScan_of_answered h hr
    simpa using scanStep_events_length_le_one s.cfg s.buf
  case poll =>
    obtain ⟨c, rfl, rfl⟩ := performScan_of_answered h hr
    simp
  case append b =>
    obtain ⟨st, n, rfl⟩ := exec_append_eq_next h
    cases (newResponses_of_append rfl).symm.trans hr
    simp
  case encodeSensor | encodeCommand =>
    cases h
    cases (newResponses_of_append rfl).symm.trans hr
    simp [length_enc, Frame.length]
  all_goals
    cases h
    cases (newResponses_of_append rfl).symm.trans hr
    simp

/-! ### What is read -/

/-- Settles O37: the two moves are the ones that show the same. -/
theorem historyIsNeverRead : Obligations.HistoryIsNeverRead := by
  intro i s s' t t' hcfg hbuf hc h h'
  obtain ⟨u, u', hu, hu', hsame⟩ := exec_showSame i hcfg hbuf hc
  cases hu.symm.trans h
  cases hu'.symm.trans h'
  exact hsame

/-- A codec request answers the same in every state with one configuration, but for the buffer's length. -/
theorem exec_codec_answers {i : Instr} (c : Config)
    (hi : (∃ a b v, i = .encodeSensor a b v) ∨ (∃ a b, i = .encodeCommand a b) ∨ (∃ w, i = .decode w) ∨
      (∃ w, i = .checksum w)) :
    ∃ r : Response, ∀ s : State, s.cfg = c → exec i s = .next (s.answer { r with len := s.buf.length }) := by
  obtain ⟨a, b, v, rfl⟩ | ⟨a, b, rfl⟩ | ⟨w, rfl⟩ | ⟨w, rfl⟩ := hi
  · exact ⟨{ status := .ok, len := 0, bytes := some (enc c (.sensor a b v)) }, fun | _, rfl => rfl⟩
  · exact ⟨{ status := .ok, len := 0, bytes := some (enc c (.command a b)) }, fun | _, rfl => rfl⟩
  · exact ⟨{ status := (decodeFrame c w).status, len := 0, result := some (decodeFrame c w) }, fun | _, rfl => rfl⟩
  · exact ⟨{ status := .ok, len := 0, chk := some (chk w) }, fun _ _ => rfl⟩

/-- Settles O38: the two responses are one response with two lengths. -/
theorem codecReadsNoState : Obligations.CodecReadsNoState := by
  intro s s' t t' i r r' hi hcfg h h' hr hr'
  obtain ⟨resp, hexec⟩ := exec_codec_answers s.cfg hi
  cases (hexec s rfl).symm.trans h
  cases (hexec s' hcfg.symm).symm.trans h'
  rw [newResponses_answer, List.singleton_inj] at hr hr'
  rw [← hr, ← hr']

/-! ### APPENDS -/

/-- The bytes that APPENDS adds to a buffer of `n` bytes: those that fit, from the first one on. -/
def fitting (n : Nat) (bs : Bytes) : Capacity → Bytes
  | .inf => bs
  | .finite k => bs.take (k - n)

/-- The first byte is added exactly when its own APPEND is accepted, and the others to the buffer after that. -/
theorem fitting_cons {s : State} (hwf : Memory.wf s.cfg.cap s.buf = true) (b : Byte) (bs : Bytes) :
    fitting s.buf.length (b :: bs) s.cfg.cap =
      acceptedBy (.append b) s ++ fitting (s.buf ++ acceptedBy (.append b) s).length bs s.cfg.cap := by
  rw [acceptedBy_append]
  cases hcap : s.cfg.cap with
  | inf => rfl
  | finite k =>
    have hle : s.buf.length ≤ k := by simpa [Memory.wf, Capacity.admits, hcap] using hwf
    obtain heq | hlt := hle.eq_or_lt
    · simp [fitting, Capacity.isFull, heq]
    · have hroom : k - s.buf.length = k - (s.buf.length + 1) + 1 := by omega
      simp [fitting, Capacity.isFull, hlt.ne, hroom]

theorem runRequests_appends_fitting {s : State} {bs : Bytes} (hwf : Memory.wf s.cfg.cap s.buf = true) :
    ∃ t rs, runRequests (appends bs) s = .next t ∧ t.responses = s.responses ++ rs ∧ rs.length = bs.length ∧
      t.events = s.events ∧ t.buf = s.buf ++ fitting s.buf.length bs s.cfg.cap := by
  induction bs generalizing s with
  | nil => exact ⟨s, [], rfl, by simp, rfl, rfl, by cases s.cfg.cap <;> simp [fitting]⟩
  | cons b bs ih =>
    obtain ⟨u, hexec⟩ := everyRequestGoesOn (.append b) s
    have hwf' := exec_wf hwf hexec
    obtain ⟨st, n, rfl⟩ := exec_append_eq_next hexec
    obtain ⟨t, rs, hrun, hrs, hlen, hevents, hbuf⟩ := ih hwf'
    refine ⟨t, { status := st, len := n } :: rs, runRequests_cons_eq_next_iff.mpr ⟨_, hexec, hrun⟩, ?_,
      congrArg (· + 1) hlen, hevents, ?_⟩
    · exact hrs.trans (List.append_assoc ..)
    · rw [fitting_cons hwf, ← List.append_assoc]
      exact hbuf

/-- Settles O54: what fits is everything with capacity INF, else the bytes up to the capacity. -/
theorem appendsTakesWhatFits : Obligations.AppendsTakesWhatFits := by
  intro s bs hwf
  obtain ⟨t, rs, hrun, hrs, hlen, hevents, hbuf⟩ := runRequests_appends_fitting (bs := bs) hwf
  refine ⟨rfl, t, hrun, by rw [newResponses_of_append hrs, hlen], hevents, fun hcap => ?_, fun n hcap => ?_⟩
  · rw [hbuf, hcap, fitting]
  · rw [hbuf, hcap, fitting]

end Sys2Proof.Machine
end

section
/-! PROOFS. The event consumer (10_state.md R34, 70_reset_and_hazards.md R154): which scans a refusal holds, and what
lifts a hold. That a hold is a next state, one for each refusal, is the model's choice (log 5). -/

namespace Sys2Proof.Machine

/-! ### What a refusal holds -/

theorem scanStep_silent_iff (c : Config) (buf : Bytes) : (scanStep c buf).events = [] ↔ quiescent c buf = true := by
  rw [scanStep_events_eq_nil, scanStep_stops_eq_quiescent]

theorem scanPoll_silent_iff (c : Config) (buf : Bytes) : (scanPoll c buf).events = [] ↔ quiescent c buf = true := by
  rw [scanPoll_events_eq_nil, scanStep_stops_eq_quiescent]

/-- Settles O24: a scan with an event is held; one with none stopped at its first body, so it left the buffer. -/
theorem heldScanDoesNotOccur : Obligations.HeldScanDoesNotOccur := by
  intro s c' hoffer
  refine ⟨scanStep_silent_iff _ _, scanPoll_silent_iff _ _, fun he => performScan_held he hoffer, fun he => ?_,
    fun he => performScan_held he hoffer, fun he => ?_, fun i hi => ?_⟩
  · exact performScan_of_unchanged (scanStep_of_stops (scanStep_events_eq_nil.mp he)).1 he
  · exact performScan_of_unchanged (scanPoll_buf_of_stops (scanPoll_events_eq_nil.mp he)) he
  · obtain ⟨f, k, -, hexec⟩ := exists_window_of_wire hi
    rw [hexec]
    exact performScan_held (windowScan_events_ne_nil _ _ _ _) hoffer

/-! ### What lifts a hold -/

/-- Whatever the consumer is, a step of `s` performs the scan `r`, which has an event. -/
structure ScanPending (s : State) (r : ScanResult) : Prop where
  event : r.events ≠ []
  step_eq : ∀ c, step (s.withConsumer c) = performScan r (s.withConsumer c)

section
variable {s t : State} {r : ScanResult}

theorem core_run_succ_eq_next_iff {m : Nat} :
    Host.Core.run core (m + 1) s = .next t ↔ ∃ u, step s = .next u ∧ Host.Core.run core m u = .next t := by
  have hcore : core.step s = step s := rfl
  cases h : step s <;> simp [Host.Core.run, hcore.trans h]

/-- The step after a run. -/
theorem core_run_succ_of_run {u : State} {m : Nat} (hrun : Host.Core.run core m s = .next t)
    (hstep : step t = .next u) : Host.Core.run core (m + 1) s = .next u := by
  induction m generalizing s with
  | zero =>
    cases hrun
    exact core_run_succ_eq_next_iff.mpr ⟨u, hstep, rfl⟩
  | succ m ih =>
    obtain ⟨v, hv, hrun⟩ := core_run_succ_eq_next_iff.mp hrun
    exact core_run_succ_eq_next_iff.mpr ⟨v, hv, ih hrun⟩

/-- One refusal: only the consumer moves on. -/
theorem ScanPending.step_of_refusal (h : ScanPending s r) {c c' : Consumer} (hoffer : c.offer = (false, c')) :
    step (s.withConsumer c) = .next (s.withConsumer c') := by
  rw [h.step_eq]
  exact performScan_held h.event hoffer

/-- An acceptance: the scan takes effect. -/
theorem ScanPending.step_of_acceptance (h : ScanPending s r) {c c' : Consumer} (hoffer : c.offer = (true, c')) :
    step (s.withConsumer c) = .next ((s.withConsumer c').applyScan r) := by
  rw [h.step_eq]
  exact performScan_accepted h.event hoffer

/-- The refusals that are listed are used up, one by one. -/
theorem ScanPending.run_refusals (h : ScanPending s r) (n : Nat) (more : List Bool) (after : Bool) :
    Host.Core.run core n (s.withConsumer ⟨List.replicate n false ++ more, after⟩) =
      .next (s.withConsumer ⟨more, after⟩) := by
  induction n with
  | zero => rfl
  | succ n ih => exact core_run_succ_eq_next_iff.mpr ⟨_, h.step_of_refusal rfl, ih⟩

/-- A consumer that never accepts holds the scan for ever. -/
theorem ScanPending.run_never (h : ScanPending s r) (n m : Nat) :
    Host.Core.run core m (s.withConsumer ⟨List.replicate n false, false⟩) =
      .next (s.withConsumer ⟨List.replicate (n - m) false, false⟩) := by
  induction m generalizing n with
  | zero => rfl
  | succ m ih =>
    have hoffer : (Consumer.mk (List.replicate n false) false).offer =
        (false, ⟨List.replicate (n - 1) false, false⟩) := by
      cases n <;> rfl
    have hrun := ih (n - 1)
    rw [Nat.sub_sub, Nat.add_comm 1] at hrun
    exact core_run_succ_eq_next_iff.mpr ⟨_, h.step_of_refusal hoffer, hrun⟩

end

/-- A STEP or POLL with an event is such a scan, and it shortens the buffer. -/
theorem exists_scanPending {s : State} {i : Instr} {rs : List Bytes} (hi : i = .step ∨ i = .poll)
    (hs : s.requests = encode s.cfg i :: rs) (he : (scanStep s.cfg s.buf).events ≠ []) :
    ∃ r, ScanPending s r ∧ r.buf.length < s.buf.length ∧
      ∀ c, exec i (s.withConsumer c) = performScan r (s.withConsumer c) := by
  have hgo : (scanStep s.cfg s.buf).outcome.stops = false := by simpa [scanStep_events_eq_nil] using he
  obtain rfl | rfl := hi
  · exact ⟨scanStep s.cfg s.buf, ⟨he, fun c => step_of_pending (s := s.withConsumer c) hs⟩,
      (scanStep_of_not_stops hgo).1, fun _ => rfl⟩
  · exact ⟨scanPoll s.cfg s.buf, ⟨by simp [scanPoll_events_eq_nil, hgo],
      fun c => step_of_pending (s := s.withConsumer c) hs⟩, scanPoll_buf_length_lt hgo, fun _ => rfl⟩

/-- Settles O25: the listed refusals are used up, then the scan takes effect or is held for ever. -/
theorem onlyConsumerLiftsHold : Obligations.OnlyConsumerLiftsHold := by
  intro s i rs hi hs he
  obtain ⟨r, hpending, hlt, hexec⟩ := exists_scanPending hi hs he
  have lifts {n : Nat} {c c' : Consumer} (hrun : Host.Core.run core n s = .next (s.withConsumer c))
      (hoffer : c.offer = (true, c')) :
      ∃ t, Host.Core.run core (n + 1) s = .next t ∧ exec i (s.withConsumer c) = .next t ∧ t.requests = rs ∧
        t.consumer = c' ∧ t.buf.length < s.buf.length := by
    have hscan := hpending.step_of_acceptance hoffer
    exact ⟨_, core_run_succ_of_run hrun hscan, (hexec c).trans ((hpending.step_eq c).symm.trans hscan),
      congrArg List.tail hs, rfl, hlt⟩
  refine ⟨fun n more hanswers => ?_, fun n hc => ?_, fun n hc m => ?_⟩
  · have hrun := hpending.run_refusals n (true :: more) s.consumer.after
    rw [← hanswers] at hrun
    exact ⟨hrun, lifts hrun rfl⟩
  · have hrun := hpending.run_refusals n [] true
    rw [List.append_nil, ← hc] at hrun
    exact ⟨hrun, lifts hrun rfl⟩
  · have hrun := hpending.run_never n m
    rw [← hc] at hrun
    exact hrun

end Sys2Proof.Machine
end
